-- ==== Sys2Proof/Word.lean ====
section
/-! DEFINITION. Words and plain records of the block: the widths of spec/00_scope.md R7, R10 and R11. -/

namespace Sys2Proof

/-- One coordinate, COORD_W = 16 bits, unsigned (R7, R11). -/
abbrev Coord := BitVec 16

/-- One packed 0xAARRGGBB colour, which is also one raster cell, COLOR_W = 32 bits (R7, R25). -/
abbrev Color := BitVec 32

/-- One channel value, CHAN_W = 8 bits (R7). -/
abbrev ChannelValue := BitVec 8

/-- One command word, 128 bits (R71). -/
abbrev Command := BitVec 128

/-- One response word, 72 bits (R82). -/
abbrev Response := BitVec 72

/-- R11: `Pos` is the pair (x : u16, y : u16). -/
structure Pos where
  x : Coord
  y : Coord
deriving DecidableEq, Repr, Inhabited

/-- R11: `Pixel` is the pair (pos : Pos, color : u32). -/
structure Pixel where
  pos : Pos
  color : Color
deriving DecidableEq, Repr, Inhabited

end Sys2Proof
end

