-- ==== Sys2Proof/Syntax.lean ====
section
/-! DEFINITION. The 13 commands of the block (spec/00_scope.md R2, spec/30_encoding.md R78), one constructor per row of
spec/opcode_table.json, with the operands their formats carry (R72). -/

namespace Sys2Proof

/-- R11, R75: the four channels of a packed colour. -/
inductive Channel where
  | alpha
  | red
  | green
  | blue
deriving DecidableEq, Repr, Inhabited

/-- R11, R76: the four directions. -/
inductive Direction where
  | up
  | down
  | left
  | right
deriving DecidableEq, Repr, Inhabited

/-- One command of the block. -/
inductive Instr where
  /-- R101: extract channel `ch` of colour `data`. -/
  | getch (ch : Channel) (data : Color)
  /-- R102: replace channel `ch` of colour `data` by `val`, carrying position `a` through. -/
  | setch (ch : Channel) (val : ChannelValue) (data : Color) (a : Pos)
  /-- R103: step channel `ch` of colour `data` by map function `fn` (the 2-bit field of R77), carrying `a` through. -/
  | mapch (ch : Channel) (fn : BitVec 2) (data : Color) (a : Pos)
  /-- R121: A plus B. -/
  | padd (a b : Pos)
  /-- R122: A minus B. -/
  | psub (a b : Pos)
  /-- R123: one step from A in direction `dir`. -/
  | pstep (dir : Direction) (a : Pos)
  /-- R124: the inverse of direction `dir`. -/
  | dinv (dir : Direction)
  /-- R141: which edges of the `width` by `height` rectangle position A touches. -/
  | edges (a : Pos) (width height : Coord)
  /-- R150: register the next slot with origin offset A. -/
  | addslot (a : Pos)
  /-- R152: append the pixel at local position A with colour `data` to slot `slot`. -/
  | push (slot : BitVec 8) (a : Pos) (data : Color)
  /-- R154: translate, write and empty the accumulator. -/
  | render
  /-- R157: read raster cell `index`. -/
  | rdpix (index : BitVec 32)
  /-- R158: read control and status register `csr`. -/
  | rdcsr (csr : BitVec 8)
deriving DecidableEq, Repr, Inhabited

end Sys2Proof
end

