-- ==== Sys2Proof/WellFormed.lean ====
section
/-! DEFINITION. The static check on a command: what the operand types of Syntax.lean do not already exclude. -/

namespace Sys2Proof

/-- R77: only the map function codes 0 (DEC) and 1 (INC) exist. The codes 2 and 3 are reserved and make the word
illegal (R80). Every other operand field is legal at every value: R75 and R76 say so of the channel and direction codes,
R81 of slot numbers, CSR numbers, cell indices and rectangle sides (refused at execution, not as encodings). -/
def Instr.wellFormed : Instr → Bool
  | .getch _ _ => true
  | .setch _ _ _ _ => true
  | .mapch _ fn _ _ => fn == 0#2 || fn == 1#2
  | .padd _ _ => true
  | .psub _ _ => true
  | .pstep _ _ => true
  | .dinv _ => true
  | .edges _ _ _ => true
  | .addslot _ => true
  | .push _ _ _ => true
  | .render => true
  | .rdpix _ => true
  | .rdcsr _ => true

end Sys2Proof
end

