-- ==== Sys2Proof/Decode.lean ====
section
/-! DEFINITION. The command word (spec/30_encoding.md R71 to R80): its fields, the opcode map, the decoder and, after
it, the encoder. -/

namespace Sys2Proof

/-- The fields of R71, which stand at the same place in every format. The defaults are those of a field a format does
not use (R72): zero. -/
structure Fields where
  op : BitVec 8
  slot : BitVec 8 := 0
  ch : BitVec 2 := 0
  dir : BitVec 2 := 0
  fn : BitVec 2 := 0
  rsv : BitVec 2 := 0
  val : BitVec 8 := 0
  data : BitVec 32 := 0
  ax : BitVec 16 := 0
  ay : BitVec 16 := 0
  bx : BitVec 16 := 0
  bh : BitVec 16 := 0
deriving DecidableEq, Repr

/-- R71: where each field stands in the word (`bh` is the field the spec calls `by`, a word Lean keeps to itself). -/
def Fields.unpack (c : Command) : Fields where
  op := c.extractLsb' 0 8
  slot := c.extractLsb' 8 8
  ch := c.extractLsb' 16 2
  dir := c.extractLsb' 18 2
  fn := c.extractLsb' 20 2
  rsv := c.extractLsb' 22 2
  val := c.extractLsb' 24 8
  data := c.extractLsb' 32 32
  ax := c.extractLsb' 64 16
  ay := c.extractLsb' 80 16
  bx := c.extractLsb' 96 16
  bh := c.extractLsb' 112 16

/-- R71, R10: the word that holds the fields, most significant first. -/
def Fields.pack (f : Fields) : Command :=
  f.bh ++ f.bx ++ f.ay ++ f.ax ++ f.data ++ f.val ++ f.rsv ++ f.fn ++ f.dir ++ f.ch ++ f.slot ++ f.op

/-- Position A of a word (R73). -/
def Fields.posA (f : Fields) : Pos := ⟨f.ax, f.ay⟩

/-- Position B of a word (R73). -/
def Fields.posB (f : Fields) : Pos := ⟨f.bx, f.bh⟩

/-- R75: the channel codes. -/
def Channel.code : Channel → BitVec 2
  | .alpha => 0
  | .red => 1
  | .green => 2
  | .blue => 3

/-- R75: all four channel codes are legal. -/
def Channel.ofCode (c : BitVec 2) : Channel :=
  if c = 0 then .alpha else if c = 1 then .red else if c = 2 then .green else .blue

/-- R76: the direction codes. -/
def Direction.code : Direction → BitVec 2
  | .up => 0
  | .down => 1
  | .left => 2
  | .right => 3

/-- R76: all four direction codes are legal. -/
def Direction.ofCode (c : BitVec 2) : Direction :=
  if c = 0 then .up else if c = 1 then .down else if c = 2 then .left else .right

/-- The 13 rows of the opcode map (R78). -/
inductive Mnemonic where
  | getch | setch | mapch | padd | psub | pstep | dinv | edges | addslot | push | render | rdpix | rdcsr
deriving DecidableEq, Repr

/-- R78: the rows in the table's order. -/
def Mnemonic.all : List Mnemonic :=
  [.getch, .setch, .mapch, .padd, .psub, .pstep, .dinv, .edges, .addslot, .push, .render, .rdpix, .rdcsr]

/-- R78: column `op`. -/
def Mnemonic.opcode : Mnemonic → BitVec 8
  | .getch => 0x01
  | .setch => 0x02
  | .mapch => 0x03
  | .padd => 0x10
  | .psub => 0x11
  | .pstep => 0x12
  | .dinv => 0x13
  | .edges => 0x20
  | .addslot => 0x30
  | .push => 0x31
  | .render => 0x32
  | .rdpix => 0x33
  | .rdcsr => 0x34

/-- R78: column `match`. -/
def Mnemonic.matchWord : Mnemonic → Command
  | .getch => 0x00000000000000000000000000000001
  | .setch => 0x00000000000000000000000000000002
  | .mapch => 0x00000000000000000000000000000003
  | .padd => 0x00000000000000000000000000000010
  | .psub => 0x00000000000000000000000000000011
  | .pstep => 0x00000000000000000000000000000012
  | .dinv => 0x00000000000000000000000000000013
  | .edges => 0x00000000000000000000000000000020
  | .addslot => 0x00000000000000000000000000000030
  | .push => 0x00000000000000000000000000000031
  | .render => 0x00000000000000000000000000000032
  | .rdpix => 0x00000000000000000000000000000033
  | .rdcsr => 0x00000000000000000000000000000034

/-- R78: column `mask`. It covers the opcode and every bit that must be zero; the mask of MAPCH has fn[1] in it. -/
def Mnemonic.maskWord : Mnemonic → Command
  | .getch => 0xFFFFFFFFFFFFFFFF00000000FFFCFFFF
  | .setch => 0xFFFFFFFF000000000000000000FCFFFF
  | .mapch => 0xFFFFFFFF0000000000000000FFECFFFF
  | .padd => 0x0000000000000000FFFFFFFFFFFFFFFF
  | .psub => 0x0000000000000000FFFFFFFFFFFFFFFF
  | .pstep => 0xFFFFFFFF00000000FFFFFFFFFFF3FFFF
  | .dinv => 0xFFFFFFFFFFFFFFFFFFFFFFFFFFF3FFFF
  | .edges => 0x0000000000000000FFFFFFFFFFFFFFFF
  | .addslot => 0xFFFFFFFF00000000FFFFFFFFFFFFFFFF
  | .push => 0xFFFFFFFF0000000000000000FFFF00FF
  | .render => 0xFFFFFFFFFFFFFFFFFFFFFFFFFFFFFFFF
  | .rdpix => 0xFFFFFFFFFFFFFFFF00000000FFFFFFFF
  | .rdcsr => 0xFFFFFFFFFFFFFFFFFFFFFFFFFFFF00FF

/-- R78: the row of an opcode; R80: the other 243 opcodes have none. -/
def Mnemonic.ofOpcode (op : BitVec 8) : Option Mnemonic :=
  Mnemonic.all.find? fun m => m.opcode == op

/-- R72, R73: the operands a row's format takes from the fields. -/
def Mnemonic.operands (m : Mnemonic) (f : Fields) : Instr :=
  match m with
  | .getch => .getch (Channel.ofCode f.ch) f.data
  | .setch => .setch (Channel.ofCode f.ch) f.val f.data f.posA
  | .mapch => .mapch (Channel.ofCode f.ch) f.fn f.data f.posA
  | .padd => .padd f.posA f.posB
  | .psub => .psub f.posA f.posB
  | .pstep => .pstep (Direction.ofCode f.dir) f.posA
  | .dinv => .dinv (Direction.ofCode f.dir)
  | .edges => .edges f.posA f.bx f.bh
  | .addslot => .addslot f.posA
  | .push => .push f.slot f.posA f.data
  | .render => .render
  | .rdpix => .rdpix f.data
  | .rdcsr => .rdcsr f.slot

/-- Why a word is no command (R80). -/
inductive DecodeError where
  /-- `op` is none of the 13 opcodes. -/
  | unknownOpcode
  /-- `op` is that of row `m`, and a bit the row requires to be zero is not: a field its format does not use, `rsv`, or
  fn[1] of MAPCH. -/
  | mustBeZero (m : Mnemonic)
deriving DecidableEq, Repr

/-- What the decoder answers: a command, or the reason why the word is illegal. -/
inductive Decoded where
  | command (i : Instr)
  | illegal (why : DecodeError)
deriving DecidableEq, Repr

/-- R78, R80: the decoder, total on all 2^128 words. -/
def decode (c : Command) : Decoded :=
  match Mnemonic.ofOpcode (c.extractLsb' 0 8) with
  | none => .illegal .unknownOpcode
  | some m =>
    if c &&& m.maskWord = m.matchWord then .command (m.operands (Fields.unpack c))
    else .illegal (.mustBeZero m)

/-- The row of the opcode map a command belongs to (R78). -/
def Instr.mnemonic : Instr → Mnemonic
  | .getch _ _ => .getch
  | .setch _ _ _ _ => .setch
  | .mapch _ _ _ _ => .mapch
  | .padd _ _ => .padd
  | .psub _ _ => .psub
  | .pstep _ _ => .pstep
  | .dinv _ => .dinv
  | .edges _ _ _ => .edges
  | .addslot _ => .addslot
  | .push _ _ _ => .push
  | .render => .render
  | .rdpix _ => .rdpix
  | .rdcsr _ => .rdcsr

/-- R72, R83: the fields of a command; the fields its format does not use are zero. -/
def Instr.fields : Instr → Fields
  | .getch ch data => { op := 0x01, ch := ch.code, data := data }
  | .setch ch val data a => { op := 0x02, ch := ch.code, val := val, data := data, ax := a.x, ay := a.y }
  | .mapch ch fn data a => { op := 0x03, ch := ch.code, fn := fn, data := data, ax := a.x, ay := a.y }
  | .padd a b => { op := 0x10, ax := a.x, ay := a.y, bx := b.x, bh := b.y }
  | .psub a b => { op := 0x11, ax := a.x, ay := a.y, bx := b.x, bh := b.y }
  | .pstep dir a => { op := 0x12, dir := dir.code, ax := a.x, ay := a.y }
  | .dinv dir => { op := 0x13, dir := dir.code }
  | .edges a width height => { op := 0x20, ax := a.x, ay := a.y, bx := width, bh := height }
  | .addslot a => { op := 0x30, ax := a.x, ay := a.y }
  | .push slot a data => { op := 0x31, slot := slot, data := data, ax := a.x, ay := a.y }
  | .render => { op := 0x32 }
  | .rdpix index => { op := 0x33, data := index }
  | .rdcsr csr => { op := 0x34, slot := csr }

/-- R71, R72: the word of a command. -/
def encode (i : Instr) : Command := i.fields.pack

/-- The command word whose low `nbits` bits are `w` and whose other bits are zero. -/
def tableWord (nbits w : Nat) : Command := BitVec.ofNat 128 (w % 2 ^ nbits)

/-- What the decoder reads from the bits `w` of a word of `nbits` bits, numbered as spec/opcode_table.json numbers them.
There is one length (R71), so a word of more than 128 bits is no command. -/
def decodeTableWord (nbits w : Nat) : Option Instr :=
  if nbits ≤ 128 then
    match decode (tableWord nbits w) with
    | .command i => some i
    | .illegal _ => none
  else none

end Sys2Proof
end

