-- ==== Sys2Proof/Config.lean ====
section
/-! DEFINITION. What one instance of the block fixes when it is built (spec/00_scope.md R7, R33) and the free values
the spec leaves open (spec/70_reset_and_hazards.md R251). The constants here have no body: nothing can evaluate them
or prove a value of them, so what is proved holds for every value. -/

namespace Sys2Proof

/-- The OPEN parameters of R7. The two capacities start at 1, so each is held as the number below it: every value
of this type is a legal parameter set of R7 and every legal parameter set is a value of this type
(DEDUCED, safe, log entry 1). -/
structure Params where
  /-- WIDTH, 0 to 65535. -/
  width : BitVec 16
  /-- HEIGHT, 0 to 65535. -/
  height : BitVec 16
  /-- N_SLOTS - 1, with N_SLOTS in 1 to 128. -/
  slotsBelow : Fin 128
  /-- ACC_DEPTH - 1, with ACC_DEPTH in 1 to 4294967295. -/
  depthBelow : Fin 4294967295
deriving DecidableEq, Repr, Inhabited

/-- N_SLOTS (R7): capacity of the slot table. -/
def Params.nSlots (p : Params) : Nat := p.slotsBelow.val + 1

/-- ACC_DEPTH (R7): capacity of the accumulator in pixels, all slots together. -/
def Params.accDepth (p : Params) : Nat := p.depthBelow.val + 1

/-- NCELLS = WIDTH * HEIGHT (R7). -/
def Params.nCells (p : Params) : Nat := p.width.toNat * p.height.toNat

namespace Config

/-- The parameters of the instance that `State.reset` describes: OPEN (R7, R33), so a free constant (log entry 1). -/
opaque params : Params

/-- RASTER_INIT (R251): the raster's content after reset event number `n`, as a function of the cell index. One fixed
function per reset event, unspecified: a free value (log entry 2). -/
opaque rasterInit : (n : Nat) → (cell : Nat) → Color

end Config

end Sys2Proof
end

