-- ==== Sys2Proof/Machine/State.lean ====
section
/-! DEFINITION. The state of the block (spec/10_state.md), its reset value (R35) and the three outcome types. -/

namespace Sys2Proof.Machine

/-- Sparse content of the raster (R25): pairs (cell index, cell) with strictly rising indices, one for each cell
written since reset. A cell that is not listed has not been written since reset. The unit is one 32-bit cell, because no
space of the block is byte-addressed (R50, R54; log entry 3). -/
abbrev Memory := List (Nat × Color)

/-- What the host can do to the block (R8; 00_scope.md section 8): present a 128-bit word, or assert reset. -/
inductive HostEvent where
  /-- A word on the command port (R9). -/
  | command (w : Command)
  /-- The reset input `rst` (R250). -/
  | rst
deriving DecidableEq, Repr

/-- The state of the block and, beside it, the model's own fields: the instance's parameters, the count of reset
events, and the two ports. -/
structure State where
  /-- The parameters of R7 of this instance (configuration, R34: no step changes them). -/
  params : Params
  /-- NREG (R22): the number of registered slots (a count, log entry 14). -/
  nreg : Nat
  /-- OFF[s], 0 <= s < N_SLOTS (R22). -/
  off : List Pos
  /-- ACC[s], 0 <= s < N_SLOTS (R23): each slot's pixels in push order. -/
  acc : List (List Pixel)
  /-- RASTER (R25), the cells written since reset. -/
  raster : Memory
  /-- STATUS.FAULT (R26). -/
  statusFault : Bool
  /-- STATUS.OOB (R26). -/
  statusOob : Bool
  /-- CAUSE (R28). -/
  cause : BitVec 8
  /-- FCMD (R28). -/
  fcmd : Command
  /-- The model's own: how many reset events have happened, which selects RASTER_INIT (R251; log entry 2). -/
  resets : Nat
  /-- The model's own: what the host will do next, oldest first (R9; log entry 4). -/
  input : List HostEvent
  /-- The model's own: the responses given so far, oldest first (R9; log entry 4). -/
  output : List Response
deriving DecidableEq, Repr

/-- Reasons for a machine stop: there is none. The spec gives every word in every state an outcome (R70), a fault of
the block among them (R222, R224), so a block fault is a next state and this type has no constructor (safe; log entry 7). -/
inductive Fault : Type where
deriving DecidableEq, Repr

/-- Reasons to give a command no meaning. -/
inductive Refusal where
  /-- Raised by `exec` for a command the model gives no meaning yet; no arm of this model raises it (safe). -/
  | notModelled (mnemonic : String)
deriving DecidableEq, Repr

/-- What a meaning answers. -/
abbrev Result := Host.Outcome State Fault Refusal

/-- R35: the block with parameters `p` right after its first reset, with nothing on its ports. -/
def State.init (p : Params) : State where
  params := p
  nreg := 0
  off := List.replicate p.nSlots ⟨0, 0⟩
  acc := List.replicate p.nSlots []
  raster := []
  statusFault := false
  statusOob := false
  cause := 0
  fcmd := 0
  resets := 0
  input := []
  output := []

/-- R35: the machine right after reset, at the instance's parameters. -/
def State.reset : State := State.init Config.params

end Sys2Proof.Machine
end

