-- ==== Sys2Proof/Machine/Ops.lean ====
section
/-! DEFINITION. The named operations over the raster, the slot table, the accumulator, the response port and the fault
latch: every meaning reads and changes the state through these. -/

namespace Sys2Proof.Machine

/-! ## The raster (spec/20_memory.md) -/

/-- The cell written last at index `i`, or `none` where nothing was written since reset. -/
def Memory.read? : Memory → Nat → Option Color
  | [], _ => none
  | (a, v) :: m, i => if a = i then some v else Memory.read? m i

/-- R55: replace the whole cell at index `i`, keeping the indices strictly rising. -/
def Memory.write : Memory → Nat → Color → Memory
  | [], i, v => [(i, v)]
  | (a, u) :: m, i, v =>
    if i < a then (i, v) :: (a, u) :: m
    else if i = a then (i, v) :: m
    else (a, u) :: Memory.write m i v

/-- The listed indices rise strictly and none is below `lo`. -/
def Memory.risesFrom : Nat → Memory → Bool
  | _, [] => true
  | lo, (a, _) :: m => decide (lo ≤ a) && Memory.risesFrom (a + 1) m

/-- The canonical form: the listed indices rise strictly. An unlisted index has no written value, so no entry can equal
what an unlisted index reads as (log entry 3). -/
def Memory.wf (m : Memory) : Bool := Memory.risesFrom 0 m

/-- Every listed index is below `n`. -/
def Memory.below (n : Nat) : Memory → Bool
  | [] => true
  | (a, _) :: m => decide (a < n) && Memory.below n m

/-- RASTER[i] (R25, R59): the cell written last, or RASTER_INIT(i) of the last reset event (R251). -/
def State.rasterAt (s : State) (i : Nat) : Color :=
  (s.raster.read? i).getD (Config.rasterInit s.resets i)

/-! ## The slot table and the accumulator (spec/10_state.md R22, R23) -/

/-- OFF[k]; a slot number outside the table holds nothing (log entry 14). -/
def State.offAt (s : State) (k : Nat) : Pos := (s.off[k]?).getD ⟨0, 0⟩

/-- ACC[k]; a slot number outside the table holds nothing. -/
def State.accAt (s : State) (k : Nat) : List Pixel := (s.acc[k]?).getD []

/-- ACCCNT (R23): the sum of the lengths of all lists. -/
def State.accCnt (s : State) : Nat := (s.acc.map List.length).sum

/-- OFF[NREG] <- v; NREG <- NREG + 1 (R150). -/
def State.register (v : Pos) (s : State) : State :=
  { s with off := s.off.set s.nreg v, nreg := s.nreg + 1 }

/-- ACC[k] <- ACC[k] ++ [px] (R152). -/
def State.append (k : Nat) (px : Pixel) (s : State) : State :=
  { s with acc := s.acc.modify k fun l => l ++ [px] }

/-- ACC[k] <- [] for every k (R154). -/
def State.emptyAcc (s : State) : State :=
  { s with acc := s.acc.map fun _ => [] }

/-! ## The response port (spec/30_encoding.md R82) -/

/-- The response word of R82: the status byte above 64 bits of data. -/
def responseWord (status : BitVec 8) (data : BitVec 64) : Response := status ++ data

/-- One response leaves on the response port. -/
def State.answer (status : BitVec 8) (data : BitVec 64) (s : State) : State :=
  { s with output := s.output ++ [responseWord status data] }

/-- R12 `respond(v)`: status 0 and data `v`. -/
def State.respond (data : BitVec 64) (s : State) : State := s.answer 0x00 data

/-! ## Faults and the halted condition (spec/60_exceptions.md) -/

/-- R221: the six causes that can be latched. -/
inductive Cause where
  | illegalCommand
  | badSlot
  | slotTableFull
  | accOverflow
  | badIndex
  | badBounds
deriving DecidableEq, Repr

/-- R221: the code of a cause. -/
def Cause.code : Cause → BitVec 8
  | .illegalCommand => 0x01
  | .badSlot => 0x02
  | .slotTableFull => 0x03
  | .accOverflow => 0x04
  | .badIndex => 0x05
  | .badBounds => 0x06

/-- R221: the status byte of a command refused while halted; it is never latched. -/
def haltedStatus : BitVec 8 := 0xFF

/-- R222: taking a fault. The flag, the cause and the command word are latched, the response carries the cause's code
and data 0, and nothing else changes. Control goes nowhere: there is no handler. -/
def State.raise (f : Cause) (cmd : Command) (s : State) : State :=
  { s with statusFault := true, cause := f.code, fcmd := cmd }.answer f.code 0

/-- R224: the refusal of a command while the block is halted: a response, and no state change. -/
def State.refuse (s : State) : State := s.answer haltedStatus 0

/-- R223 (1), R224: the test for the halted condition, which comes before every other test. There is no return from the
halted condition but reset (R224, R164). -/
def State.unlessHalted (body : State → State) (s : State) : State :=
  if s.statusFault then s.refuse else body s

/-- R80, R223 (2): what an illegal word does. -/
def State.illegalWord (cmd : Command) (s : State) : State :=
  s.unlessHalted (State.raise .illegalCommand cmd)

/-! ## Reset (spec/70_reset_and_hazards.md) -/

/-- R250, R251, R35: a reset event puts every piece of the block's state at its reset value and starts a new
RASTER_INIT. It is the return from the halted condition. The two ports and the parameters are not state of the block
(R34; log entry 13); nothing is answered. -/
def State.resetEvent (s : State) : State :=
  { State.init s.params with resets := s.resets + 1, input := s.input, output := s.output }

end Sys2Proof.Machine
end

