-- ==== Sys2Proof/Machine/Flags.lean ====
section
/-! DEFINITION. The wrap indications of the position commands (spec/41_position.md R120 to R125, spec/10_state.md R27)
and the status flags (spec/10_state.md R26). -/

namespace Sys2Proof.Machine

/-- R12: 1 exactly when `a + b` exceeds 65535. -/
def carry16 (a b : Coord) : Bool := decide (65536 ≤ a.toNat + b.toNat)

/-- R12: 1 exactly when `a < b`. -/
def borrow16 (a b : Coord) : Bool := decide (a.toNat < b.toNat)

/-- A position and its two wrap indications, the result of a position command. -/
structure Wrapped where
  pos : Pos
  wrapX : Bool
  wrapY : Bool
deriving DecidableEq, Repr

/-- R121, R82: `{y', x', zext_30(0), wrap_y, wrap_x}`. -/
def Wrapped.data (r : Wrapped) : BitVec 64 :=
  r.pos.y ++ r.pos.x ++ 0#30 ++ BitVec.ofBool r.wrapY ++ BitVec.ofBool r.wrapX

/-- R30, CSR 0x01: bit 0 FAULT, bit 1 OOB, the rest zero. -/
def State.status (s : State) : BitVec 32 :=
  0#30 ++ BitVec.ofBool s.statusOob ++ BitVec.ofBool s.statusFault

/-- R154, R155: OOB is set when a write was dropped, and never cleared. -/
def oobAfter (oob : Bool) (dropped : Nat) : Bool := oob || decide (0 < dropped)

end Sys2Proof.Machine
end

