-- ==== Sys2Proof/Machine/Operands.lean ====
section
/-! DEFINITION. The pure functions of the operands: the channel algebra (spec/40_channel.md R100), the position and
direction arithmetic (spec/41_position.md), the edge test (spec/42_bounds.md R141), and the data words of R82. -/

namespace Sys2Proof.Machine

/-! ## Channels -/

/-- R75: 24, 16, 8, 0. -/
def channelShift : Channel → Nat
  | .alpha => 24
  | .red => 16
  | .green => 8
  | .blue => 0

/-- R75: 8 ones at the channel's slice. -/
def positiveMask (ch : Channel) : Color := 0x000000FF#32 <<< channelShift ch

/-- R75: the complement of the positive mask. -/
def negativeMask (ch : Channel) : Color := ~~~(positiveMask ch)

/-- R100: `(c & pmask(ch)) >> shift(ch)`, a `u8`. -/
def getChannel (c : Color) (ch : Channel) : ChannelValue :=
  ((c &&& positiveMask ch) >>> channelShift ch).setWidth 8

/-- R100: `(c & nmask(ch)) | (zext_32(v) << shift(ch))`. -/
def setChannel (c : Color) (ch : Channel) (v : ChannelValue) : Color :=
  (c &&& negativeMask ch) ||| (v.setWidth 32 <<< channelShift ch)

/-- R100: read, apply `f`, write back. -/
def mapChannel (c : Color) (ch : Channel) (f : ChannelValue → ChannelValue) : Color :=
  setChannel c ch (f (getChannel c ch))

/-- R77: the map functions of the block. -/
inductive MapFn where
  | dec
  | inc
deriving DecidableEq, Repr

/-- R77: codes 2 and 3 are reserved. -/
def MapFn.ofCode? (fn : BitVec 2) : Option MapFn :=
  if fn = 0 then some .dec else if fn = 1 then some .inc else none

/-- R77, R107: one step down or up, saturating at 0 and 255. -/
def MapFn.apply : MapFn → ChannelValue → ChannelValue
  | .dec, v => if v = 0 then 0 else v - 1
  | .inc, v => if v = 255 then 255 else v + 1

/-- R82: `{ay, ax, colour}`, the response data of SETCH and MAPCH (R105: the position is carried through). -/
def pixelData (a : Pos) (c : Color) : BitVec 64 := a.y ++ a.x ++ c

/-! ## Positions and directions -/

/-- R121: component-wise sum modulo 2^16, with the carry of each axis. -/
def addPos (a b : Pos) : Wrapped :=
  ⟨⟨a.x + b.x, a.y + b.y⟩, carry16 a.x b.x, carry16 a.y b.y⟩

/-- R122: component-wise difference modulo 2^16, with the borrow of each axis. -/
def subPos (a b : Pos) : Wrapped :=
  ⟨⟨a.x - b.x, a.y - b.y⟩, borrow16 a.x b.x, borrow16 a.y b.y⟩

/-- R123: one step; up is toward smaller y and left toward smaller x. -/
def stepPos (dir : Direction) (a : Pos) : Wrapped :=
  match dir with
  | .up => ⟨⟨a.x, a.y - 1⟩, false, borrow16 a.y 1⟩
  | .down => ⟨⟨a.x, a.y + 1⟩, false, carry16 a.y 1⟩
  | .left => ⟨⟨a.x - 1, a.y⟩, borrow16 a.x 1, false⟩
  | .right => ⟨⟨a.x + 1, a.y⟩, carry16 a.x 1, false⟩

/-- R124: Up and Down, Left and Right are each other's inverse. -/
def invertDir : Direction → Direction
  | .up => .down
  | .down => .up
  | .left => .right
  | .right => .left

/-! ## Edges -/

/-- R141: the horizontal edge; the far edge is tested second, so Right wins. For width 0 there is no far edge, and EDGES
does not reach this function (R142). -/
def horizontalEdge (x width : Coord) : Option Direction :=
  if x.toNat + 1 = width.toNat then some .right else if x = 0 then some .left else none

/-- R141: the vertical edge; the far edge is tested second, so Down wins. -/
def verticalEdge (y height : Coord) : Option Direction :=
  if y.toNat + 1 = height.toNat then some .down else if y = 0 then some .up else none

/-- R141: three bits for one axis, the present bit above the direction code, or zero. -/
def edgeBits : Option Direction → BitVec 3
  | none => 0
  | some d => 1#1 ++ d.code

/-- R141, R82: [2:0] the horizontal edge, [6:4] the vertical edge, the rest zero. -/
def edgesData (h v : Option Direction) : BitVec 64 :=
  0#57 ++ edgeBits v ++ 0#1 ++ edgeBits h

/-! ## Composition -/

/-- R51, R154, R160, R162: the raster index of a local position under an offset, exact, without wrap-around. -/
def cellIndex (p : Params) (off pos : Pos) : Nat :=
  (pos.y.toNat + off.y.toNat) * p.width.toNat + (pos.x.toNat + off.x.toNat)

/-- R30: an offset register as a 32-bit value, y above x. -/
def offsetWord (v : Pos) : BitVec 32 := v.y ++ v.x

/-- R31: ID, the letters "FBC" above the command-set version 1. -/
def idWord : BitVec 32 := 0x46424301

end Sys2Proof.Machine
end

