-- ==== Sys2Proof/Machine/Bounds.lean ====
section
/-! DEFINITION. EDGES (spec/42_bounds.md): the sub-block bounds_edge_detector. -/

namespace Sys2Proof.Machine

/-- R141, R142. -/
def execEdges (a : Pos) (width height : Coord) (s : State) : Result :=
  .next (s.unlessHalted fun s =>
    if width = 0 ∨ height = 0 then s.raise .badBounds (encode (.edges a width height))
    else s.respond (edgesData (horizontalEdge a.x width) (verticalEdge a.y height)))

end Sys2Proof.Machine
end

