-- ==== Sys2Proof/Machine/Channel.lean ====
section
/-! DEFINITION. GETCH, SETCH and MAPCH (spec/40_channel.md): the sub-block channel_slice_mapper. -/

namespace Sys2Proof.Machine

/-- R101. -/
def execGetch (ch : Channel) (data : Color) (s : State) : Result :=
  .next (s.unlessHalted fun s => s.respond ((getChannel data ch).setWidth 64))

/-- R102. -/
def execSetch (ch : Channel) (val : ChannelValue) (data : Color) (a : Pos) (s : State) : Result :=
  .next (s.unlessHalted fun s => s.respond (pixelData a (setChannel data ch val)))

/-- R103. A reserved function code is no command: its word is illegal (R77, R80) and takes IllegalCommand; the decoder
never yields it (log entry 6). -/
def execMapch (ch : Channel) (fn : BitVec 2) (data : Color) (a : Pos) (s : State) : Result :=
  .next (s.unlessHalted fun s =>
    match MapFn.ofCode? fn with
    | some f => s.respond (pixelData a (mapChannel data ch f.apply))
    | none => s.raise .illegalCommand (encode (.mapch ch fn data a)))

end Sys2Proof.Machine
end

