-- ==== Sys2Proof/Machine/Compose.lean ====
section
/-! DEFINITION. ADDSLOT, PUSH, RENDER and RDPIX (spec/43_compose.md): the pixel accumulator and the raster-write
arbiter. -/

namespace Sys2Proof.Machine

/-- R150. A command is latched as its own word, which is the word received (log entry 5). -/
def execAddslot (a : Pos) (s : State) : Result :=
  .next (s.unlessHalted fun s =>
    if s.nreg = s.params.nSlots then s.raise .slotTableFull (encode (.addslot a))
    else (s.register a).respond (BitVec.ofNat 64 s.nreg))

/-- R152, R223: BadSlot is tested before AccOverflow. -/
def execPush (slot : BitVec 8) (a : Pos) (data : Color) (s : State) : Result :=
  .next (s.unlessHalted fun s =>
    if s.nreg ≤ slot.toNat then s.raise .badSlot (encode (.push slot a data))
    else if s.accCnt = s.params.accDepth then s.raise .accOverflow (encode (.push slot a data))
    else
      let t := s.append slot.toNat ⟨a, data⟩
      t.respond (BitVec.ofNat 64 t.accCnt))

/-- R154, R60: the writes of one RENDER in their order: ascending slot number, and push order inside one slot. -/
def State.renderWrites (s : State) : List (Nat × Color) :=
  (List.range s.nreg).flatMap fun k =>
    (s.accAt k).map fun px => (cellIndex s.params (s.offAt k) px.pos, px.color)

/-- The raster and the counters while a RENDER runs. -/
structure Arbiter where
  raster : Memory
  written : Nat
  dropped : Nat
deriving DecidableEq, Repr

/-- R154, R155: one write, performed when its index is below NCELLS and dropped otherwise. -/
def Arbiter.write (nCells : Nat) (r : Arbiter) (w : Nat × Color) : Arbiter :=
  if w.1 < nCells then { r with raster := r.raster.write w.1 w.2, written := r.written + 1 }
  else { r with dropped := r.dropped + 1 }

/-- R154: all writes of one RENDER. -/
def State.arbitrate (s : State) : Arbiter :=
  s.renderWrites.foldl (Arbiter.write s.params.nCells) ⟨s.raster, 0, 0⟩

/-- R154, R82: `{zext_32(dropped), zext_32(written)}`. -/
def Arbiter.data (r : Arbiter) : BitVec 64 := BitVec.ofNat 32 r.dropped ++ BitVec.ofNat 32 r.written

/-- R154 to R156. -/
def execRender (s : State) : Result :=
  .next (s.unlessHalted fun s =>
    let r := s.arbitrate
    { s with raster := r.raster, statusOob := oobAfter s.statusOob r.dropped }.emptyAcc.respond r.data)

/-- R157, R58. -/
def execRdpix (index : BitVec 32) (s : State) : Result :=
  .next (s.unlessHalted fun s =>
    if s.params.nCells ≤ index.toNat then s.raise .badIndex (encode (.rdpix index))
    else s.respond ((s.rasterAt index.toNat).setWidth 64))

end Sys2Proof.Machine
end

