-- ==== Sys2Proof/Machine/Csr.lean ====
section
/-! DEFINITION. The control and status registers (spec/10_state.md R29 to R33) and RDCSR (spec/43_compose.md R158). -/

namespace Sys2Proof.Machine

/-- R30: CSR[n]. A number that is not in the map, and 0x80 + s with s >= N_SLOTS, reads 0 (R29). -/
def State.csr (s : State) (n : BitVec 8) : BitVec 32 :=
  match n with
  | 0x00#8 => idWord
  | 0x01#8 => s.status
  | 0x02#8 => s.cause.setWidth 32
  | 0x03#8 => (BitVec.ofNat 8 s.nreg).setWidth 32
  | 0x04#8 => BitVec.ofNat 32 s.accCnt
  | 0x05#8 => s.params.width.setWidth 32
  | 0x06#8 => s.params.height.setWidth 32
  | 0x07#8 => (BitVec.ofNat 8 s.params.nSlots).setWidth 32
  | 0x08#8 => BitVec.ofNat 32 s.params.accDepth
  | 0x09#8 => s.fcmd.extractLsb' 0 32
  | 0x0A#8 => s.fcmd.extractLsb' 32 32
  | 0x0B#8 => s.fcmd.extractLsb' 64 32
  | 0x0C#8 => s.fcmd.extractLsb' 96 32
  | n =>
    if 0x80 ≤ n.toNat ∧ n.toNat - 0x80 < s.params.nSlots then offsetWord (s.offAt (n.toNat - 0x80))
    else 0

/-- R158: the one command that is served while the block is halted (R224), with the same effect there. -/
def execRdcsr (csr : BitVec 8) (s : State) : Result :=
  .next (s.respond ((s.csr csr).setWidth 64))

end Sys2Proof.Machine
end

