-- ==== Sys2Proof/Machine/Position.lean ====
section
/-! DEFINITION. PADD, PSUB, PSTEP and DINV (spec/41_position.md). -/

namespace Sys2Proof.Machine

/-- R121. -/
def execPadd (a b : Pos) (s : State) : Result :=
  .next (s.unlessHalted fun s => s.respond (addPos a b).data)

/-- R122. -/
def execPsub (a b : Pos) (s : State) : Result :=
  .next (s.unlessHalted fun s => s.respond (subPos a b).data)

/-- R123. -/
def execPstep (dir : Direction) (a : Pos) (s : State) : Result :=
  .next (s.unlessHalted fun s => s.respond (stepPos dir a).data)

/-- R124. -/
def execDinv (dir : Direction) (s : State) : Result :=
  .next (s.unlessHalted fun s => s.respond ((invertDir dir).code.setWidth 64))

end Sys2Proof.Machine
end

