-- ==== Sys2Proof/Machine/Dispatch.lean ====
section
/-! DEFINITION. One arm per command: what the block does with a legal word. -/

namespace Sys2Proof.Machine

def exec (i : Instr) (s : State) : Host.Outcome State Fault Refusal :=
  match i with
  | .getch ch data => Sys2Proof.Machine.execGetch ch data s
  | .setch ch val data a => Sys2Proof.Machine.execSetch ch val data a s
  | .mapch ch fn data a => Sys2Proof.Machine.execMapch ch fn data a s
  | .padd a b => Sys2Proof.Machine.execPadd a b s
  | .psub a b => Sys2Proof.Machine.execPsub a b s
  | .pstep dir a => Sys2Proof.Machine.execPstep dir a s
  | .dinv dir => Sys2Proof.Machine.execDinv dir s
  | .edges a width height => Sys2Proof.Machine.execEdges a width height s
  | .addslot a => Sys2Proof.Machine.execAddslot a s
  | .push slot a data => Sys2Proof.Machine.execPush slot a data s
  | .render => Sys2Proof.Machine.execRender s
  | .rdpix index => Sys2Proof.Machine.execRdpix index s
  | .rdcsr csr => Sys2Proof.Machine.execRdcsr csr s

end Sys2Proof.Machine
end

