-- ==== Sys2Proof/Machine/Port.lean ====
section
/-! DEFINITION. The command port (spec/00_scope.md R9, spec/30_encoding.md R70): what the next host event is, and what
the block does with a word. -/

namespace Sys2Proof.Machine

/-- The oldest host event that has not happened yet, and the state that no longer has it in front. -/
def State.nextEvent (s : State) : Option (HostEvent × State) :=
  match s.input with
  | [] => none
  | e :: rest => some (e, { s with input := rest })

/-- The host will do `e` next, before everything it was going to do. -/
def State.withNextEvent (e : HostEvent) (s : State) : State := { s with input := e :: s.input }

/-- R70: what the block does with one 128-bit word: a legal word is its command (R78), an illegal one faults (R80). The
halted condition is tested first in both (R223). -/
def acceptWord (w : Command) (s : State) : Result :=
  match decode w with
  | .command i => exec i s
  | .illegal _ => .next (s.illegalWord w)

/-- What the block does with one host event. -/
def handleEvent (e : HostEvent) (s : State) : Result :=
  match e with
  | .command w => acceptWord w s
  | .rst => .next s.resetEvent

end Sys2Proof.Machine
end

