-- ==== Sys2Proof/Machine/Step.lean ====
section
/-! DEFINITION. One step of the block. -/

namespace Sys2Proof.Machine

/-- R70, R8, R230: the block handles the host's next event to completion; with no event it is idle and keeps all its
state (log entry 12). -/
def step (s : State) : Host.Outcome State Fault Refusal :=
  match s.nextEvent with
  | none => .next s
  | some (e, t) => handleEvent e t

/-- The word `w` of `nbits` bits is the host's next command (log entry 4). -/
def State.withFetchWord (s : State) (nbits w : Nat) : State :=
  s.withNextEvent (.command (tableWord nbits w))

end Sys2Proof.Machine
end

