-- ==== Sys2Proof/Machine/Sources.lean ====
section
/-! DEFINITION. The pixel sources of the environment (spec/44_pixel_sources.md R180 to R198): the agents that produce
the block's commands. They are no part of the block (spec/00_scope.md R4) and no rule of the block depends on them; they
share the block's arithmetic (R184). What the spec leaves OPEN about a source (its initial flag, position, direction and
colour, SAND_CLAIM_CHECK, the shuffle) is an argument or a field here, so a statement about it holds for every value
(log entry 9). -/

namespace Sys2Proof.Machine

/-- R180: the closed set of four component variants, each with its state. -/
inductive Component where
  /-- R186. -/
  | blinker (active : Bool) (pos : Pos)
  /-- R187: the pixel, the target channel and the direction (Up or Down). -/
  | breather (pixel : Pixel) (ch : Channel) (dir : Direction)
  /-- R190: the grains, the domain, SAND_COLOR and SAND_CLAIM_CHECK (R192). -/
  | fallingSand (grains : List Pos) (width height : Coord) (color : Color) (claimCheck : Bool)
  /-- R195: the rectangle, the trail with the head last, the direction pair and the colour. -/
  | laser (width height : Coord) (trail : List Pos) (horizontal vertical : Direction) (color : Color)
deriving DecidableEq, Repr

/-! ## Construction (R181) -/

/-- R186: BLINK_INIT and BLINK_POS; the position is (0,0) when none is given. -/
def newBlinker (init : Bool) (pos : Pos := ⟨0, 0⟩) : Component := .blinker init pos

/-- R187: BREATHE_INIT_DIR is the direction. -/
def newBreather (pixel : Pixel) (ch : Channel) (initDir : Direction) : Component := .breather pixel ch initDir

/-- R190, R192: SAND_CLAIM_CHECK is false by default. -/
def newFallingSand (grains : List Pos) (width height : Coord) (color : Color) (claimCheck : Bool := false) : Component :=
  .fallingSand grains width height color claimCheck

/-- R181: the other construction of a FallingSand, from a grain count and the domain size. Where the grains stand then is
not stated: `place` is that placement, an argument like every OPEN point of the environment (log entry 9). -/
def newFallingSandCount (count : Nat) (place : Nat → Pos) (width height : Coord) (color : Color)
    (claimCheck : Bool := false) : Component :=
  newFallingSand ((List.range count).map place) width height color claimCheck

/-- R195: the Laser always starts at local (0,0) moving Left and Up. -/
def newLaser (width height : Coord) (color : Color) : Component :=
  .laser width height [⟨0, 0⟩] .left .up color

/-! ## Rendering -/

/-- R186: opaque white. -/
def opaqueWhite : Color := 0xFFFFFFFF

/-- R186: fully transparent black. -/
def transparentBlack : Color := 0x00000000

/-- R186, R187, R190, R195: the pixels of one component in its local space. A Laser's pixels all carry one colour, so
their order cannot be observed in the raster (R195); here it is the trail's, oldest first (log entry 8). -/
def Component.render : Component → List Pixel
  | .blinker active pos => [⟨pos, if active then opaqueWhite else transparentBlack⟩]
  | .breather pixel _ _ => [pixel]
  | .fallingSand grains _ _ color _ => grains.map fun g => ⟨g, color⟩
  | .laser _ _ trail _ _ color => trail.map fun p => ⟨p, color⟩

/-! ## Ticking -/

/-- R187: Up means increment and Down decrement. -/
def breatheFn (dir : Direction) : MapFn := if dir = .up then .inc else .dec

/-- R187: step the target channel, then flip the direction if the value after the step is a bound. -/
def tickBreather (pixel : Pixel) (ch : Channel) (dir : Direction) : Component :=
  let color := mapChannel pixel.color ch (breatheFn dir).apply
  let v := getChannel color ch
  .breather ⟨pixel.pos, color⟩ ch (if v = 0 ∨ v = 255 then invertDir dir else dir)

/-- R191: straight down, down-left, down-right, right, left, in the block's wrapping arithmetic
(log entry 10). -/
def sandCandidates (g : Pos) : List Pos :=
  let down := (stepPos .down g).pos
  [down, (stepPos .left down).pos, (stepPos .right down).pos, (stepPos .right g).pos, (stepPos .left g).pos]

/-- R191, R192: a candidate is available when it lies in the domain, no grain stood there before the tick and, only if
SAND_CLAIM_CHECK, no grain of this tick has taken it. -/
def sandAvailable (claimCheck : Bool) (width height : Coord) (old new : List Pos) (c : Pos) : Bool :=
  decide (c.x.toNat < width.toNat) && decide (c.y.toNat < height.toNat) && !old.contains c &&
    !(claimCheck && new.contains c)

/-- R191: where one grain goes: the first available candidate, or nowhere. -/
def moveGrain (claimCheck : Bool) (width height : Coord) (old new : List Pos) (g : Pos) : Pos :=
  ((sandCandidates g).find? (sandAvailable claimCheck width height old new)).getD g

/-- R191: `order` is a permutation of the indices of `n` grains. -/
def isShuffle (order : List Nat) (n : Nat) : Bool := order.isPerm (List.range n)

/-- R191: the new grain list, where `order` is the shuffled order of the indices of `old` (`isShuffle`), drawn each
tick. -/
def moveGrains (claimCheck : Bool) (width height : Coord) (old : List Pos) (order : List Nat) : List Pos :=
  (order.filterMap fun k => old[k]?).foldl
    (fun new g => new ++ [moveGrain claimCheck width height old new g]) []

/-- R195: the capacity of a Laser's trail. -/
def trailCap : Nat := 10

/-- R196: append the new head, and drop the oldest entry of a trail that has grown past its capacity. -/
def pushTrail (trail : List Pos) (head : Pos) : List Pos :=
  if trailCap < (trail ++ [head]).length then (trail ++ [head]).tail else trail ++ [head]

/-- R196: one tick of a Laser. `none` when the trail is empty, the document's fatal case (R227), or when the rectangle has
a zero side, where EDGES faults (R142; log entry 11). -/
def tickLaser (width height : Coord) (trail : List Pos) (horizontal vertical : Direction) (color : Color) :
    Option Component :=
  match trail.getLast? with
  | none => none
  | some head =>
    if width = 0 ∨ height = 0 then none
    else
      let lh := if (horizontalEdge head.x width).isSome then invertDir horizontal else horizontal
      let lv := if (verticalEdge head.y height).isSome then invertDir vertical else vertical
      let next := (stepPos lv (stepPos lh head).pos).pos
      some (.laser width height (pushTrail trail next) lh lv color)

/-- One tick of a component; `order` is the shuffle a FallingSand draws (R191) and nothing to the others. `none` is the
fatal case of a Laser, or an `order` that is no permutation of the grains' indices: R191 has no such tick
(log entry 9). -/
def Component.tick (order : List Nat) : Component → Option Component
  | .blinker active pos => some (.blinker (!active) pos)
  | .breather pixel ch dir => some (tickBreather pixel ch dir)
  | .fallingSand grains width height color claimCheck =>
    if isShuffle order grains.length then
      some (.fallingSand (moveGrains claimCheck width height grains order) width height color claimCheck)
    else none
  | .laser width height trail horizontal vertical color => tickLaser width height trail horizontal vertical color

end Sys2Proof.Machine
end

