-- ==== Sys2Proof/Machine/FrameLoop.lean ====
section
/-! DEFINITION. The host's frame loop (spec/44_pixel_sources.md R181 to R184): how the components of a document Screen
become commands of the block, and the pseudo-commands of spec/30_encoding.md R84. Environment, no part of the block
(spec/00_scope.md R4; log entry 9). -/

namespace Sys2Proof.Machine

/-- R181: a component, its origin offset and the slot number ADDSLOT returned for it (`registerChildren` sets it). -/
structure Child where
  component : Component
  offset : Pos
  slot : BitVec 8
deriving DecidableEq, Repr

/-- R183: the document's Screen without its buffer: the components in registration order, and TICKS_PER_FRAME. -/
structure Scene where
  children : List Child
  ticksPerFrame : Nat
deriving DecidableEq, Repr

/-- R181, R253 (1): one ADDSLOT per component, in order. -/
def Scene.registerCommands (sc : Scene) : List Instr := sc.children.map fun c => .addslot c.offset

/-- R182: one PUSH per pixel of a component, in the order it emits them. -/
def Child.pushCommands (c : Child) : List Instr :=
  c.component.render.map fun px => .push c.slot px.pos px.color

/-- R183 (1): render every component. -/
def Scene.pushCommands (sc : Scene) : List Instr := sc.children.flatMap Child.pushCommands

/-- R84: the pseudo-command RDSTATUS. -/
def rdstatus : Instr := .rdcsr 0x01

/-- R84: the pseudo-command RDPIXXY (x, y), defined only inside the raster. -/
def rdpixXY (p : Params) (x y : Coord) : Option Instr :=
  if x.toNat < p.width.toNat ∧ y.toNat < p.height.toNat then
    some (.rdpix (BitVec.ofNat 32 (y.toNat * p.width.toNat + x.toNat)))
  else none

/-- R183 (3): read every cell of a raster of `nCells` cells. -/
def presentCommands (nCells : Nat) : List Instr :=
  (List.range nCells).map fun i => .rdpix (BitVec.ofNat 32 i)

/-- R183 (1) to (3): the commands of one frame. -/
def Scene.frameCommands (nCells : Nat) (sc : Scene) : List Instr :=
  sc.pushCommands ++ [.render] ++ presentCommands nCells

/-- R184, R191: what one tick of the Screen draws: the shuffle of each component, in registration order. -/
abbrev TickDraws := List (List Nat)

/-- R183 (4): what the ticks between two frames draw. -/
abbrev FrameDraws := List TickDraws

/-- R184: Screen.tick: every component once, in registration order. `none` when a component's tick is fatal, or when a
FallingSand is given no shuffle of its grains. -/
def tickChildren : List Child → TickDraws → Option (List Child)
  | [], _ => some []
  | c :: cs, orders =>
    match c.component.tick (orders.headD []), tickChildren cs orders.tail with
    | some k, some ks => some ({ c with component := k } :: ks)
    | _, _ => none

/-- R184. -/
def Scene.tick (orders : TickDraws) (sc : Scene) : Option Scene :=
  (tickChildren sc.children orders).map fun cs => { sc with children := cs }

/-- R183 (4): the TICKS_PER_FRAME ticks between two frames. -/
def Scene.ticks (draws : FrameDraws) (sc : Scene) : Option Scene :=
  (List.range sc.ticksPerFrame).foldl (fun o k => o.bind (Scene.tick ((draws[k]?).getD []))) (some sc)

/-- R183 (1), (4), (5): the scenes the frame loop shows, one for each entry of `draws`: a frame shows the scene, the
ticks change it, and the next frame shows what they left. `none` when one of the ticks is `none`. -/
def Scene.shown : List FrameDraws → Scene → Option (List Scene)
  | [], _ => some []
  | d :: ds, sc =>
    match sc.ticks d with
    | none => none
    | some next => (Scene.shown ds next).map fun rest => sc :: rest

/-- R183: the commands of the frame loop, as many frames as `draws` has entries. -/
def Scene.loopCommands (nCells : Nat) (draws : List FrameDraws) (sc : Scene) : Option (List Instr) :=
  (Scene.shown draws sc).map fun scenes => scenes.flatMap (Scene.frameCommands nCells)

/-- R199: the host may issue any command sequence. These commands are its next ones, in order. -/
def State.present (is : List Instr) (s : State) : State :=
  { s with input := is.map (fun i => HostEvent.command (encode i)) ++ s.input }

/-- R9: the host presents one command and takes its response. -/
def State.issue (i : Instr) (s : State) : Option (Response × State) :=
  match step (s.present [i]) with
  | .next t => t.output.getLast?.map fun r => (r, t)
  | .fault _ => none
  | .refused _ => none

/-- R181: register every component by one ADDSLOT and remember the slot number the response returns (R82: data [7:0]).
`none` when an ADDSLOT is answered with a non-zero status. -/
def registerChildren : List (Component × Pos) → State → Option (List Child × State)
  | [], s => some ([], s)
  | (c, offset) :: rest, s =>
    match s.issue (.addslot offset) with
    | none => none
    | some (r, t) =>
      if r.extractLsb' 64 8 = 0x00 then
        (registerChildren rest t).map fun p => (⟨c, offset, r.extractLsb' 0 8⟩ :: p.1, p.2)
      else none

/-- R181, R253 (1): the document's `Screen::new` on the block: the scene of the registered components, and the block
after their registration. -/
def Scene.new (children : List (Component × Pos)) (ticksPerFrame : Nat) (s : State) : Option (Scene × State) :=
  (registerChildren children s).map fun p => (⟨p.1, ticksPerFrame⟩, p.2)

/-- R159: the writes of the document's single loop: for every (component, offset) pair, each pixel of its `render()`. -/
def Scene.documentWrites (p : Params) (sc : Scene) : List (Nat × Color) :=
  sc.children.flatMap fun c =>
    c.component.render.map fun px => (cellIndex p c.offset px.pos, px.color)

end Sys2Proof.Machine
end

