-- ==== Sys2Proof/Safety.lean ====
section
/-! DEFINITION. What a good state and a safe run are, in the terms the statements use. -/

namespace Sys2Proof.Machine

/-- The invariants the spec gives the state (R22, R23, R28) and the ones the model's own data carries (the tables have
N_SLOTS entries, R50; the raster list is canonical and inside the raster, R25). -/
structure State.Inv (s : State) : Prop where
  /-- OFF has one entry for each of the N_SLOTS slots. -/
  offLength : s.off.length = s.params.nSlots
  /-- ACC has one entry for each of the N_SLOTS slots. -/
  accLength : s.acc.length = s.params.nSlots
  /-- R22: NREG <= N_SLOTS. -/
  nregBound : s.nreg ≤ s.params.nSlots
  /-- R22: OFF[k] = (0,0) for every k >= NREG. -/
  offUnregistered : ∀ k, s.nreg ≤ k → s.offAt k = ⟨0, 0⟩
  /-- R23: ACC[k] = [] for every k >= NREG. -/
  accUnregistered : ∀ k, s.nreg ≤ k → s.accAt k = []
  /-- R23: ACCCNT <= ACC_DEPTH. -/
  accBound : s.accCnt ≤ s.params.accDepth
  /-- The raster list is in its canonical form. -/
  rasterWf : s.raster.wf = true
  /-- R25: only cells below NCELLS exist. -/
  rasterBelow : s.raster.below s.params.nCells = true
  /-- R28: FAULT = 1 if and only if CAUSE is not 0. -/
  faultCause : s.statusFault = true ↔ s.cause ≠ 0
  /-- R221: only the six codes are latched. -/
  causeCodes : s.cause.toNat ≤ 6
  /-- R28: FCMD is 0 while FAULT = 0. -/
  fcmdClear : s.statusFault = false → s.fcmd = 0

/-- R224, R225: the block is not halted. A halted state is never final: a run that reaches it has gone wrong. -/
abbrev State.running (s : State) : Prop := s.statusFault = false

/-- R254: what the host must respect for a command to stay clear of faults. -/
def State.serviceable (s : State) : Instr → Bool
  | .getch _ _ => true
  | .setch _ _ _ _ => true
  | .mapch _ fn _ _ => fn == 0#2 || fn == 1#2
  | .padd _ _ => true
  | .psub _ _ => true
  | .pstep _ _ => true
  | .dinv _ => true
  | .edges _ width height => width != 0 && height != 0
  | .addslot _ => s.nreg != s.params.nSlots
  | .push slot _ _ => decide (slot.toNat < s.nreg) && (s.accCnt != s.params.accDepth)
  | .render => true
  | .rdpix index => decide (index.toNat < s.params.nCells)
  | .rdcsr _ => true

/-- R221, R223: the cause a command faults with on a running block, if it faults, with the operand tests in the order of
the command's rule. -/
def State.faultOf (s : State) : Instr → Option Cause
  | .getch _ _ => none
  | .setch _ _ _ _ => none
  | .mapch _ fn _ _ => if fn = 0 ∨ fn = 1 then none else some .illegalCommand
  | .padd _ _ => none
  | .psub _ _ => none
  | .pstep _ _ => none
  | .dinv _ => none
  | .edges _ width height => if width = 0 ∨ height = 0 then some .badBounds else none
  | .addslot _ => if s.nreg = s.params.nSlots then some .slotTableFull else none
  | .push slot _ _ =>
    if s.nreg ≤ slot.toNat then some .badSlot
    else if s.accCnt = s.params.accDepth then some .accOverflow
    else none
  | .render => none
  | .rdpix index => if s.params.nCells ≤ index.toNat then some .badIndex else none
  | .rdcsr _ => none

/-- R60: the colour of the last write to cell `i` in a sequence of writes, if there is one. -/
def lastWrite (i : Nat) : List (Nat × Color) → Option Color
  | [] => none
  | (a, v) :: ws =>
    match lastWrite i ws with
    | some u => some u
    | none => if a = i then some v else none

/-- Two states that differ at most in how their raster lists are written down: every cell reads alike. -/
def State.SameReadings (s t : State) : Prop :=
  t = { s with raster := t.raster } ∧ ∀ i, s.rasterAt i = t.rasterAt i

end Sys2Proof.Machine
end

