-- ==== Sys2Proof/Certificates/Slice0/Obligations.lean ====
section
/-! DEFINITION. The statements about the model, from the numbered rules of spec/, for the provers. -/

open Sys2Proof Sys2Proof.Machine

namespace Sys2Proof.Claims

/-- What a completed command adds to a state: one response with status 0x00 and the given data (R82). -/
def answered (data : BitVec 64) (s : State) : State :=
  { s with output := s.output ++ [(0x00#8 ++ data : BitVec 72)] }

/-- What a fault does to a state, as R222 lists it. -/
def latched (code : BitVec 8) (word : Command) (s : State) : State :=
  { s with statusFault := true, cause := code, fcmd := word, output := s.output ++ [(code ++ 0#64 : BitVec 72)] }

/-- What a refusal while halted does to a state, as R224 says it. -/
def turnedAway (s : State) : State :=
  { s with output := s.output ++ [(0xFF#8 ++ 0#64 : BitVec 72)] }

/-- R75: the 8 bits of channel `ch` in `c`, by the slice column: bits [31:24], [23:16], [15:8] and [7:0]. -/
def slice (c : Color) (ch : Channel) : BitVec 8 :=
  c.extractLsb' (8 * (3 - ch.code.toNat)) 8

/-- R78: the opcode map, row by row: the command, `op`, `match` and `mask`. -/
def opcodeMap : List (Mnemonic × BitVec 8 × Command × Command) :=
  [(.getch, 0x01, 0x00000000000000000000000000000001, 0xFFFFFFFFFFFFFFFF00000000FFFCFFFF),
   (.setch, 0x02, 0x00000000000000000000000000000002, 0xFFFFFFFF000000000000000000FCFFFF),
   (.mapch, 0x03, 0x00000000000000000000000000000003, 0xFFFFFFFF0000000000000000FFECFFFF),
   (.padd, 0x10, 0x00000000000000000000000000000010, 0x0000000000000000FFFFFFFFFFFFFFFF),
   (.psub, 0x11, 0x00000000000000000000000000000011, 0x0000000000000000FFFFFFFFFFFFFFFF),
   (.pstep, 0x12, 0x00000000000000000000000000000012, 0xFFFFFFFF00000000FFFFFFFFFFF3FFFF),
   (.dinv, 0x13, 0x00000000000000000000000000000013, 0xFFFFFFFFFFFFFFFFFFFFFFFFFFF3FFFF)] ++
  [(.edges, 0x20, 0x00000000000000000000000000000020, 0x0000000000000000FFFFFFFFFFFFFFFF),
   (.addslot, 0x30, 0x00000000000000000000000000000030, 0xFFFFFFFF00000000FFFFFFFFFFFFFFFF),
   (.push, 0x31, 0x00000000000000000000000000000031, 0xFFFFFFFF0000000000000000FFFF00FF),
   (.render, 0x32, 0x00000000000000000000000000000032, 0xFFFFFFFFFFFFFFFFFFFFFFFFFFFFFFFF),
   (.rdpix, 0x33, 0x00000000000000000000000000000033, 0xFFFFFFFFFFFFFFFF00000000FFFFFFFF),
   (.rdcsr, 0x34, 0x00000000000000000000000000000034, 0xFFFFFFFFFFFFFFFFFFFFFFFFFFFF00FF)]

/-- R72: `rsv` and the fields a command's format does not use are zero. -/
def unusedZero (f : Fields) : Mnemonic → Prop
  | .getch => f.rsv = 0 ∧ f.slot = 0 ∧ f.dir = 0 ∧ f.fn = 0 ∧ f.val = 0 ∧ f.ax = 0 ∧ f.ay = 0 ∧ f.bx = 0 ∧ f.bh = 0
  | .setch => f.rsv = 0 ∧ f.slot = 0 ∧ f.dir = 0 ∧ f.fn = 0 ∧ f.bx = 0 ∧ f.bh = 0
  | .mapch => f.rsv = 0 ∧ f.slot = 0 ∧ f.dir = 0 ∧ f.val = 0 ∧ f.bx = 0 ∧ f.bh = 0
  | .padd => f.rsv = 0 ∧ f.slot = 0 ∧ f.ch = 0 ∧ f.dir = 0 ∧ f.fn = 0 ∧ f.val = 0 ∧ f.data = 0
  | .psub => f.rsv = 0 ∧ f.slot = 0 ∧ f.ch = 0 ∧ f.dir = 0 ∧ f.fn = 0 ∧ f.val = 0 ∧ f.data = 0
  | .pstep => f.rsv = 0 ∧ f.slot = 0 ∧ f.ch = 0 ∧ f.fn = 0 ∧ f.val = 0 ∧ f.data = 0 ∧ f.bx = 0 ∧ f.bh = 0
  | .dinv => f.rsv = 0 ∧ f.slot = 0 ∧ f.ch = 0 ∧ f.fn = 0 ∧ f.val = 0 ∧ f.data = 0 ∧ f.ax = 0 ∧ f.ay = 0 ∧ f.bx = 0 ∧
      f.bh = 0
  | .edges => f.rsv = 0 ∧ f.slot = 0 ∧ f.ch = 0 ∧ f.dir = 0 ∧ f.fn = 0 ∧ f.val = 0 ∧ f.data = 0
  | .addslot => f.rsv = 0 ∧ f.slot = 0 ∧ f.ch = 0 ∧ f.dir = 0 ∧ f.fn = 0 ∧ f.val = 0 ∧ f.data = 0 ∧ f.bx = 0 ∧ f.bh = 0
  | .push => f.rsv = 0 ∧ f.ch = 0 ∧ f.dir = 0 ∧ f.fn = 0 ∧ f.val = 0 ∧ f.bx = 0 ∧ f.bh = 0
  | .render => f.rsv = 0 ∧ f.slot = 0 ∧ f.ch = 0 ∧ f.dir = 0 ∧ f.fn = 0 ∧ f.val = 0 ∧ f.data = 0 ∧ f.ax = 0 ∧ f.ay = 0 ∧
      f.bx = 0 ∧ f.bh = 0
  | .rdpix => f.rsv = 0 ∧ f.slot = 0 ∧ f.ch = 0 ∧ f.dir = 0 ∧ f.fn = 0 ∧ f.val = 0 ∧ f.ax = 0 ∧ f.ay = 0 ∧ f.bx = 0 ∧
      f.bh = 0
  | .rdcsr => f.rsv = 0 ∧ f.ch = 0 ∧ f.dir = 0 ∧ f.fn = 0 ∧ f.val = 0 ∧ f.data = 0 ∧ f.ax = 0 ∧ f.ay = 0 ∧ f.bx = 0 ∧
      f.bh = 0

/-- The words of one row: with opcode `op`, a word that meets `ok` is the command `operands` reads from its fields (R71,
R73), and any other is illegal. -/
def wordsOf (op : BitVec 8) (ok : Fields → Prop) (operands : Fields → Instr) : Prop :=
  ∀ w : Command, w.extractLsb' 0 8 = op →
    (ok (Fields.unpack w) → decode w = .command (operands (Fields.unpack w))) ∧
    (¬ ok (Fields.unpack w) → ∃ why, decode w = .illegal why)

/-- R154: the writes of one RENDER, in loop order: for each slot below NREG, for each pixel of its list, the index
`gy * WIDTH + gx` and the colour. -/
def writesOf (s : State) : List (Nat × Color) :=
  (List.range s.nreg).flatMap fun k => (s.accAt k).map fun p =>
    ((p.pos.y.toNat + (s.offAt k).y.toNat) * s.params.width.toNat + (p.pos.x.toNat + (s.offAt k).x.toNat), p.color)

/-- The writes of one RENDER that are in range. -/
def inRange (s : State) : List (Nat × Color) :=
  (writesOf s).filter fun w => decide (w.1 < s.params.width.toNat * s.params.height.toNat)

/-- The writes of one RENDER that are dropped. -/
def outOfRange (s : State) : List (Nat × Color) :=
  (writesOf s).filter fun w => decide (s.params.width.toNat * s.params.height.toNat ≤ w.1)

/-- A small instance for the examples: WIDTH 8, HEIGHT 4, N_SLOTS 4, ACC_DEPTH 8 (program P2 of 95_test_vectors.md). -/
def small : Params := ⟨8, 4, 3, 7⟩

/-- A Laser after `n` ticks from its construction (R195, R196). -/
def laserAfter (width height : Coord) (color : Color) : Nat → Option Component
  | 0 => some (newLaser width height color)
  | n + 1 => (laserAfter width height color n).bind (Component.tick [])

end Sys2Proof.Claims

open Sys2Proof.Claims

/-! ## Encoding -/

/-- R71, R72, R78: the decoder reads back every operand the encoder writes. -/
def Obligations.DecodeInvertsEncode : Prop :=
  ∀ i : Instr, i.wellFormed = true → decode (encode i) = .command i

/-- R78, R80: a legal word is the word of exactly one well-formed command, so no bit of it is ignored. -/
def Obligations.EncodeInvertsDecode : Prop :=
  ∀ (w : Command) (i : Instr), decode w = .command i →
    encode i = w ∧ i.wellFormed = true ∧ ∀ j : Instr, j.wellFormed = true → encode j = w → j = i

/-- R78: a word is the command of a row if and only if `c & mask == match`, and no word matches two rows. -/
def Obligations.OpcodeMapDecidesEveryWord : Prop :=
  (∀ m op match_ mask, (m, op, match_, mask) ∈ opcodeMap → ∀ w : Command,
    ((∃ i, decode w = .command i ∧ i.mnemonic = m) ↔ w &&& mask = match_) ∧
    (w &&& mask = match_ → w.extractLsb' 0 8 = op)) ∧
  (∀ r ∈ opcodeMap, ∀ r' ∈ opcodeMap, ∀ w : Command, w &&& r.2.2.2 = r.2.2.1 → w &&& r'.2.2.2 = r'.2.2.1 → r = r')

/-- R72: a word with the opcode of a row decodes to a command exactly when every field the row's format does not use,
and `rsv`, is zero; for MAPCH, whose `fn` is used, the code must also be 0 or 1 (R77). -/
def Obligations.UnusedFieldsMustBeZero : Prop :=
  ∀ (m : Mnemonic) (w : Command), w.extractLsb' 0 8 = m.opcode →
    ((∃ i, decode w = .command i) ↔
      unusedZero (Fields.unpack w) m ∧ (m = .mapch → (Fields.unpack w).fn = 0 ∨ (Fields.unpack w).fn = 1))

/-- R80: which words are illegal, and that an illegal word raises IllegalCommand when the block is not halted. -/
def Obligations.IllegalWordsFault : Prop :=
  (∀ w : Command, (∃ why, decode w = .illegal why) ↔ ∀ r ∈ opcodeMap, w &&& r.2.2.2 ≠ r.2.2.1) ∧
  (∀ w : Command, (∀ r ∈ opcodeMap, w.extractLsb' 0 8 ≠ r.2.1) → ∃ why, decode w = .illegal why) ∧
  (∃ why, decode 0 = .illegal why) ∧
  (∀ (m : Mnemonic) (w : Command), w.extractLsb' 0 8 = m.opcode → ¬ unusedZero (Fields.unpack w) m →
    ∃ why, decode w = .illegal why) ∧
  (∀ w : Command, (Fields.unpack w).rsv ≠ 0 → ∃ why, decode w = .illegal why) ∧
  (∀ w : Command, w.extractLsb' 0 8 = 0x03 → w.getLsbD 21 = true → ∃ why, decode w = .illegal why) ∧
  (∀ (s : State) (w : Command) (rest : List HostEvent) (why : DecodeError), s.running → s.input = .command w :: rest →
    decode w = .illegal why → step s = .next (latched 0x01 w { s with input := rest }))

/-- R85 and the worked words of R101, R103, R121, R123, R141, R150, R157 and R158, written out. -/
def Obligations.SampleWordsDecode : Prop :=
  encode (.push 1 ⟨2, 3⟩ 0x00FF0000) = 0x000000000003000200FF000000000131 ∧
  decode 0x000000000003000200FF000000000131 = .command (.push 1 ⟨2, 3⟩ 0x00FF0000) ∧
  decode 0x000000000000000000FF000000010001 = .command (.getch .red 0x00FF0000) ∧
  decode 0x000000000000000000FF000000010003 = .command (.mapch .red 0 0x00FF0000 ⟨0, 0⟩) ∧
  decode 0x0014000A000400030000000000000010 = .command (.padd ⟨3, 4⟩ ⟨10, 20⟩) ∧
  decode 0x00000000000300000000000000080012 = .command (.pstep .left ⟨0, 3⟩) ∧
  decode 0x000A000A000000000000000000000020 = .command (.edges ⟨0, 0⟩ 10 10) ∧
  decode 0x00000000000200050000000000000030 = .command (.addslot ⟨5, 2⟩) ∧
  decode 0x00000000000000000000000900000033 = .command (.rdpix 9) ∧
  decode 0x00000000000000000000000000008134 = .command (.rdcsr 0x81)

/-! ## The command port -/

/-- R70: when the host's next event is a word that decodes to a command, the step is that command's meaning, in the state
from which the event has been taken. -/
def Obligations.StepRunsTheDecodedCommand : Prop :=
  ∀ (s : State) (w : Command) (rest : List HostEvent) (i : Instr),
    s.input = .command w :: rest → decode w = .command i → step s = exec i { s with input := rest }

/-- R70: every word has exactly one outcome, one of (a) to (d), and the step never stops. -/
def Obligations.EveryWordHasOneOutcome : Prop :=
  ∀ (s : State) (w : Command) (rest : List HostEvent), s.input = .command w :: rest →
    ∃ t, step s = .next t ∧
      ((s.running ∧ (∃ i, decode w = .command i) ∧ t.running ∧ ∃ d : BitVec 64, t.output = s.output ++ [0x00#8 ++ d]) ∨
       (s.running ∧ (∃ i, decode w = .command i) ∧
          ∃ code : BitVec 8, 0x02 ≤ code.toNat ∧ code.toNat ≤ 0x06 ∧ t = latched code w { s with input := rest }) ∨
       (s.running ∧ (∃ why, decode w = .illegal why) ∧ t = latched 0x01 w { s with input := rest }) ∨
       (¬ s.running ∧ (∃ n, decode w = .command (.rdcsr n)) ∧ ∃ d : BitVec 64, t = answered d { s with input := rest }) ∨
       (¬ s.running ∧ (¬ ∃ n, decode w = .command (.rdcsr n)) ∧ t = turnedAway { s with input := rest }))

/-- R9: every accepted command produces exactly one response, and responses come in command order: after the first `n`
of a sequence of words the first `n` responses have been given, and they stay as they are. -/
def Obligations.OneResponsePerCommand : Prop :=
  ∀ (ws : List Command) (s : State) (rest : List HostEvent), s.input = ws.map .command ++ rest →
    ∃ rs : List Response, rs.length = ws.length ∧ ∀ n, n ≤ ws.length →
      ∃ t : State, Sys2Proof.core.run n s = .next t ∧ t.output = s.output ++ rs.take n ∧
        t.input = (ws.drop n).map .command ++ rest

/-- R230: an idle block keeps all its state. -/
def Obligations.IdleBlockKeepsItsState : Prop :=
  ∀ s : State, s.input = [] → step s = .next s

/-! ## Faults and the halted condition -/

/-- R221: the causes, their codes, which command raises each and when; every other command raises none, Halted is a
response status only, and no other code is ever latched or answered. -/
def Obligations.FaultCausesAndConditions : Prop :=
  (∀ (s : State) (w : Command) (rest : List HostEvent), s.running → s.input = .command w :: rest →
    (∃ why, decode w = .illegal why) → step s = .next (latched 0x01 w { s with input := rest })) ∧
  (∀ (s : State) slot a data, s.running → s.nreg ≤ slot.toNat →
    exec (.push slot a data) s = .next (latched 0x02 (encode (.push slot a data)) s)) ∧
  (∀ (s : State) a, s.running → s.nreg = s.params.nSlots →
    exec (.addslot a) s = .next (latched 0x03 (encode (.addslot a)) s)) ∧
  (∀ (s : State) slot a data, s.running → slot.toNat < s.nreg → s.accCnt = s.params.accDepth →
    exec (.push slot a data) s = .next (latched 0x04 (encode (.push slot a data)) s)) ∧
  (∀ (s : State) index, s.running → s.params.nCells ≤ index.toNat →
    exec (.rdpix index) s = .next (latched 0x05 (encode (.rdpix index)) s)) ∧
  (∀ (s : State) a width height, s.running → width = 0 ∨ height = 0 →
    exec (.edges a width height) s = .next (latched 0x06 (encode (.edges a width height)) s)) ∧
  (∀ (s : State) i, s.running → s.serviceable i = true → ∃ t, exec i s = .next t ∧ t.running ∧ t.cause = s.cause ∧
    t.fcmd = s.fcmd) ∧
  (∀ (s : State) (w : Command) (rest : List HostEvent) (t : State), ¬ s.running → s.input = .command w :: rest →
    (¬ ∃ n, decode w = .command (.rdcsr n)) → step s = .next t →
    t.output = s.output ++ [(0xFF#8 ++ 0#64 : BitVec 72)] ∧ t.cause = s.cause) ∧
  (∀ (s t : State) (w : Command) (rest : List HostEvent), s.input = .command w :: rest → step s = .next t →
    (t.cause = s.cause ∨ (1 ≤ t.cause.toNat ∧ t.cause.toNat ≤ 6)) ∧
    ∃ r : Response, t.output = s.output ++ [r] ∧
      ((r.extractLsb' 64 8).toNat ≤ 6 ∨ r.extractLsb' 64 8 = 0xFF))

/-- R222: whenever a word makes a running block fault, the flag, the cause and the word as received are latched, the
response is the cause's code with data 0, and nothing else changes. -/
def Obligations.FaultEntryChangesNothingElse : Prop :=
  ∀ (s t : State) (w : Command) (rest : List HostEvent), s.running → s.input = .command w :: rest → step s = .next t →
    ¬ t.running → ∃ f : Cause, t = latched f.code w { s with input := rest }

/-- R223: halted is tested first, then the word, then the operands in the rule's order; PUSH tests BadSlot before
AccOverflow. -/
def Obligations.FaultPriority : Prop :=
  (∀ (s : State) (w : Command) (rest : List HostEvent), ¬ s.running → s.input = .command w :: rest →
    (∃ t, step s = .next t ∧ t.cause = s.cause ∧ t.fcmd = s.fcmd)) ∧
  (∀ (s : State) (w : Command) (rest : List HostEvent), s.running → s.input = .command w :: rest →
    (∃ why, decode w = .illegal why) → ∃ t, step s = .next t ∧ t.cause = 0x01) ∧
  (∀ (s : State) slot a data, s.running → s.nreg ≤ slot.toNat → s.accCnt = s.params.accDepth →
    ∃ t, exec (.push slot a data) s = .next t ∧ t.cause = 0x02)

/-- R224: while halted, a RDCSR word is executed normally, every other word is refused with no state change, and no step
but one on a reset event clears the condition. -/
def Obligations.HaltedBlockServesOnlyRdcsr : Prop :=
  (∀ (s : State) (w : Command) (rest : List HostEvent), ¬ s.running → s.input = .command w :: rest →
    (∀ n, decode w = .command (.rdcsr n) → step s = .next (answered ((s.csr n).setWidth 64) { s with input := rest })) ∧
    ((¬ ∃ n, decode w = .command (.rdcsr n)) → step s = .next (turnedAway { s with input := rest }))) ∧
  (∀ s t : State, ¬ s.running → step s = .next t → s.input.head? ≠ some .rst →
    ¬ t.running ∧ t.cause = s.cause ∧ t.fcmd = s.fcmd) ∧
  (∀ s t : State, ¬ s.running → step s = .next t → s.input.head? = some .rst → t.running)

/-- R225: however many words arrive, a halted block stays frozen: only the ports change. -/
def Obligations.HaltedBlockStaysFrozen : Prop :=
  ∀ (ws : List Command) (s : State) (rest : List HostEvent), ¬ s.running → s.input = ws.map .command ++ rest →
    ∃ t : State, Sys2Proof.core.run ws.length s = .next t ∧ t = { s with input := rest, output := t.output }

/-- R254, R226: a command that respects the host's limits never faults, and one that does not always does. The case of a
MAPCH term with function code 2 or 3, which no word decodes to, is the model's choice (log entry 6). -/
def Obligations.ServiceableCommandsNeverFault : Prop :=
  ∀ (s t : State) (i : Instr), s.running → exec i s = .next t → (t.running ↔ s.serviceable i = true)

/-! ## Channel commands -/

/-- R75: codes, shifts, masks and slices of the four channels, and the invariant of the masks. -/
def Obligations.ChannelSlicesAndMasks : Prop :=
  ∀ ch : Channel, channelShift ch = 8 * (3 - ch.code.toNat) ∧ positiveMask ch = 0xFF#32 <<< channelShift ch ∧
    negativeMask ch = ~~~(positiveMask ch) ∧ positiveMask ch ||| negativeMask ch = 0xFFFFFFFF ∧
    positiveMask ch &&& negativeMask ch = 0 ∧ Channel.ofCode ch.code = ch ∧
    (∀ c : Color, getChannel c ch = slice c ch) ∧
    [Channel.alpha, .red, .green, .blue].map Channel.code = [0, 1, 2, 3]

/-- R104: round trip, isolation, read-back, and independence of different channels. -/
def Obligations.ChannelAlgebraLaws : Prop :=
  ∀ (c : Color) (ch : Channel) (v : ChannelValue),
    setChannel c ch (getChannel c ch) = c ∧
    setChannel c ch v &&& negativeMask ch = c &&& negativeMask ch ∧
    getChannel (setChannel c ch v) ch = v ∧
    (∀ ch', ch ≠ ch' → getChannel (setChannel c ch v) ch' = getChannel c ch')

/-- R101: GETCH completes, answers the channel's slice, and changes nothing; its words; its example. -/
def Obligations.GetchReturnsOneChannel : Prop :=
  (∀ ch data (s : State), s.running → exec (.getch ch data) s = .next (answered ((slice data ch).setWidth 64) s)) ∧
  wordsOf 0x01 (unusedZero · .getch) (fun f => .getch (Channel.ofCode f.ch) f.data) ∧
  (encode (.getch .red 0x00FF0000) = 0x000000000000000000FF000000010001 ∧
    ∀ s : State, s.running → exec (.getch .red 0x00FF0000) s = .next (answered 0x00000000000000FF s))

/-- R102, R105: SETCH completes, answers the colour with one slice replaced and the position as given, and changes
nothing; its words; its example. -/
def Obligations.SetchReplacesOneChannel : Prop :=
  (∀ ch val data a (s : State), s.running → ∃ c' : Color,
    exec (.setch ch val data a) s = .next (answered (a.y ++ a.x ++ c') s) ∧
    slice c' ch = val ∧ (∀ ch', ch' ≠ ch → slice c' ch' = slice data ch')) ∧
  wordsOf 0x02 (unusedZero · .setch) (fun f => .setch (Channel.ofCode f.ch) f.val f.data ⟨f.ax, f.ay⟩) ∧
  (encode (.setch .red 0xFF 0 ⟨0, 0⟩) = 0x000000000000000000000000FF010002 ∧
    ∀ s : State, s.running → exec (.setch .red 0xFF 0 ⟨0, 0⟩) s = .next (answered 0x0000000000FF0000 s))

/-- R103, R107: MAPCH completes, steps one slice down or up by one, saturating at 0 and 255, keeps the other slices and
the position, and changes nothing; its words; its example. -/
def Obligations.MapchStepsOneChannelSaturating : Prop :=
  (∀ ch (fn : BitVec 2) data a (s : State), s.running → fn = 0 ∨ fn = 1 → ∃ c' : Color,
    exec (.mapch ch fn data a) s = .next (answered (a.y ++ a.x ++ c') s) ∧
    (slice c' ch).toNat =
      (if fn = 0 then (slice data ch).toNat - 1 else min 255 ((slice data ch).toNat + 1)) ∧
    (∀ ch', ch' ≠ ch → slice c' ch' = slice data ch')) ∧
  wordsOf 0x03 (fun f => unusedZero f .mapch ∧ (f.fn = 0 ∨ f.fn = 1))
    (fun f => .mapch (Channel.ofCode f.ch) f.fn f.data ⟨f.ax, f.ay⟩) ∧
  (encode (.mapch .red 0 0x00FF0000 ⟨0, 0⟩) = 0x000000000000000000FF000000010003 ∧
    ∀ s : State, s.running → exec (.mapch .red 0 0x00FF0000 ⟨0, 0⟩) s = .next (answered 0x0000000000FE0000 s))

/-- The model's choice (log entry 6): the meaning of a MAPCH term with a reserved function code, which no word decodes
to, is what its word does (R77, R80): IllegalCommand. -/
def Obligations.ReservedMapCodesFault : Prop :=
  ∀ ch (fn : BitVec 2) data a (s : State), s.running → fn ≠ 0 → fn ≠ 1 →
    exec (.mapch ch fn data a) s = .next (latched 0x01 (encode (.mapch ch fn data a)) s) ∧
    ∃ why, decode (encode (.mapch ch fn data a)) = .illegal why

/-! ## Position and direction commands -/

/-- R121: PADD completes, answers the sum modulo 2^16 with the carry of each axis, and changes nothing; its words; its
example. -/
def Obligations.PaddAddsPositions : Prop :=
  (∀ (a b : Pos) (s : State), s.running → exec (.padd a b) s = .next (answered
    ((a.y + b.y) ++ (a.x + b.x) ++ 0#30 ++ BitVec.ofBool (decide (65536 ≤ a.y.toNat + b.y.toNat)) ++
      BitVec.ofBool (decide (65536 ≤ a.x.toNat + b.x.toNat))) s)) ∧
  wordsOf 0x10 (unusedZero · .padd) (fun f => .padd ⟨f.ax, f.ay⟩ ⟨f.bx, f.bh⟩) ∧
  (encode (.padd ⟨3, 4⟩ ⟨10, 20⟩) = 0x0014000A000400030000000000000010 ∧
    ∀ s : State, s.running → exec (.padd ⟨3, 4⟩ ⟨10, 20⟩) s = .next (answered 0x0018000D00000000 s))

/-- R122: PSUB completes, answers A minus B modulo 2^16 with the borrow of each axis, and changes nothing; its words; its
example. -/
def Obligations.PsubSubtractsPositions : Prop :=
  (∀ (a b : Pos) (s : State), s.running → exec (.psub a b) s = .next (answered
    ((a.y - b.y) ++ (a.x - b.x) ++ 0#30 ++ BitVec.ofBool (decide (a.y.toNat < b.y.toNat)) ++
      BitVec.ofBool (decide (a.x.toNat < b.x.toNat))) s)) ∧
  wordsOf 0x11 (unusedZero · .psub) (fun f => .psub ⟨f.ax, f.ay⟩ ⟨f.bx, f.bh⟩) ∧
  (encode (.psub ⟨0, 5⟩ ⟨1, 0⟩) = 0x00000001000500000000000000000011 ∧
    ∀ s : State, s.running → exec (.psub ⟨0, 5⟩ ⟨1, 0⟩) s = .next (answered 0x0005FFFF00000001 s))

/-- R123: PSTEP completes, moves one axis by one modulo 2^16 and reports its wrap, and changes nothing; it equals PADD or
PSUB with a unit vector; its words; its example. -/
def Obligations.PstepMovesOneStep : Prop :=
  (∀ (a : Pos) (s : State), s.running →
    exec (.pstep .up a) s = .next (answered ((a.y - 1) ++ a.x ++ 0#30 ++ BitVec.ofBool (decide (a.y = 0)) ++ 0#1) s) ∧
    exec (.pstep .down a) s =
      .next (answered ((a.y + 1) ++ a.x ++ 0#30 ++ BitVec.ofBool (decide (a.y = 0xFFFF)) ++ 0#1) s) ∧
    exec (.pstep .left a) s = .next (answered (a.y ++ (a.x - 1) ++ 0#30 ++ 0#1 ++ BitVec.ofBool (decide (a.x = 0))) s) ∧
    exec (.pstep .right a) s =
      .next (answered (a.y ++ (a.x + 1) ++ 0#30 ++ 0#1 ++ BitVec.ofBool (decide (a.x = 0xFFFF))) s)) ∧
  (∀ (a : Pos) (s : State), exec (.pstep .up a) s = exec (.psub a ⟨0, 1⟩) s ∧
    exec (.pstep .down a) s = exec (.padd a ⟨0, 1⟩) s ∧ exec (.pstep .left a) s = exec (.psub a ⟨1, 0⟩) s ∧
    exec (.pstep .right a) s = exec (.padd a ⟨1, 0⟩) s) ∧
  wordsOf 0x12 (unusedZero · .pstep) (fun f => .pstep (Direction.ofCode f.dir) ⟨f.ax, f.ay⟩) ∧
  (encode (.pstep .left ⟨0, 3⟩) = 0x00000000000300000000000000080012 ∧
    ∀ s : State, s.running → exec (.pstep .left ⟨0, 3⟩) s = .next (answered 0x0003FFFF00000001 s))

/-- R124, R76: DINV completes, answers the code with bit 0 flipped, and changes nothing; inversion is its own inverse and
never crosses axes; its words; its example. -/
def Obligations.DinvInvertsDirection : Prop :=
  (∀ dir (s : State), s.running → exec (.dinv dir) s = .next (answered ((dir.code ^^^ 1#2).setWidth 64) s)) ∧
  (∀ dir, (invertDir dir).code = dir.code ^^^ 1#2 ∧ invertDir (invertDir dir) = dir) ∧
  [Direction.up, .down, .left, .right].map invertDir = [.down, .up, .right, .left] ∧
  wordsOf 0x13 (unusedZero · .dinv) (fun f => .dinv (Direction.ofCode f.dir)) ∧
  (encode (.dinv .left) = 0x00000000000000000000000000080013 ∧
    ∀ s : State, s.running → exec (.dinv .left) s = .next (answered 3 s))

/-- R125: on each axis the result is the exact integer result modulo 65536, and the wrap bit is 1 exactly when the exact
result lies outside 0 to 65535; an axis's answer depends on that axis alone. -/
def Obligations.WrapBitsReportInexactResults : Prop :=
  (∀ a b : Pos,
    ((addPos a b).pos.x.toNat : Int) = ((a.x.toNat : Int) + b.x.toNat) % 65536 ∧
    ((addPos a b).pos.y.toNat : Int) = ((a.y.toNat : Int) + b.y.toNat) % 65536 ∧
    ((addPos a b).wrapX = true ↔ (a.x.toNat : Int) + b.x.toNat < 0 ∨ 65535 < (a.x.toNat : Int) + b.x.toNat) ∧
    ((addPos a b).wrapY = true ↔ (a.y.toNat : Int) + b.y.toNat < 0 ∨ 65535 < (a.y.toNat : Int) + b.y.toNat)) ∧
  (∀ a b : Pos,
    ((subPos a b).pos.x.toNat : Int) = ((a.x.toNat : Int) - b.x.toNat) % 65536 ∧
    ((subPos a b).pos.y.toNat : Int) = ((a.y.toNat : Int) - b.y.toNat) % 65536 ∧
    ((subPos a b).wrapX = true ↔ (a.x.toNat : Int) - b.x.toNat < 0 ∨ 65535 < (a.x.toNat : Int) - b.x.toNat) ∧
    ((subPos a b).wrapY = true ↔ (a.y.toNat : Int) - b.y.toNat < 0 ∨ 65535 < (a.y.toNat : Int) - b.y.toNat)) ∧
  (∀ (dir : Direction) (a : Pos), ∃ dx dy : Int,
    (dx, dy) = (match dir with | .up => (0, -1) | .down => (0, 1) | .left => (-1, 0) | .right => (1, 0)) ∧
    ((stepPos dir a).pos.x.toNat : Int) = ((a.x.toNat : Int) + dx) % 65536 ∧
    ((stepPos dir a).pos.y.toNat : Int) = ((a.y.toNat : Int) + dy) % 65536 ∧
    ((stepPos dir a).wrapX = true ↔ (a.x.toNat : Int) + dx < 0 ∨ 65535 < (a.x.toNat : Int) + dx) ∧
    ((stepPos dir a).wrapY = true ↔ (a.y.toNat : Int) + dy < 0 ∨ 65535 < (a.y.toNat : Int) + dy))

/-! ## The bounds command -/

/-- R141: EDGES completes on a rectangle with both sides non-zero, answers the two edges, the far edge winning, and changes
nothing; with a zero side it faults; its words; its example. -/
def Obligations.EdgesReportTouchedEdges : Prop :=
  (∀ (a : Pos) (width height : Coord) (s : State), s.running → width ≠ 0 → height ≠ 0 →
    exec (.edges a width height) s = .next (answered
      (0#57 ++ (if a.y = height - 1 then 0b101#3 else if a.y = 0 then 0b100#3 else 0b000#3) ++ 0#1 ++
        (if a.x = width - 1 then 0b111#3 else if a.x = 0 then 0b110#3 else 0b000#3)) s)) ∧
  (∀ (a : Pos) (width height : Coord) (s : State), s.running → width = 0 ∨ height = 0 →
    exec (.edges a width height) s = .next (latched 0x06 (encode (.edges a width height)) s)) ∧
  wordsOf 0x20 (unusedZero · .edges) (fun f => .edges ⟨f.ax, f.ay⟩ f.bx f.bh) ∧
  (encode (.edges ⟨0, 0⟩ 10 10) = 0x000A000A000000000000000000000020 ∧
    ∀ s : State, s.running → exec (.edges ⟨0, 0⟩ 10 10) s = .next (answered 0x0000000000000046 s))

/-- R143: corner cases: a position outside touches no edge of that axis, Right and Down win on a side of 1, a corner
position reports both axes, and an axis's answer is never a direction of the other axis. -/
def Obligations.EdgesCornerCases : Prop :=
  ∀ (a : Pos) (width height : Coord) (s : State), s.running → width ≠ 0 → height ≠ 0 →
    ∃ d : BitVec 64, exec (.edges a width height) s = .next (answered d s) ∧
      (width.toNat ≤ a.x.toNat → d.extractLsb' 0 3 = 0) ∧ (height.toNat ≤ a.y.toNat → d.extractLsb' 4 3 = 0) ∧
      (width = 1 → a.x = 0 → d.extractLsb' 0 3 = 0b111) ∧ (height = 1 → a.y = 0 → d.extractLsb' 4 3 = 0b101) ∧
      ((a.x = 0 ∨ a.x.toNat + 1 = width.toNat) → (a.y = 0 ∨ a.y.toNat + 1 = height.toNat) →
        d.getLsbD 2 = true ∧ d.getLsbD 6 = true) ∧
      (d.getLsbD 2 = true → d.extractLsb' 0 2 = Direction.left.code ∨ d.extractLsb' 0 2 = Direction.right.code) ∧
      (d.getLsbD 6 = true → d.extractLsb' 4 2 = Direction.up.code ∨ d.extractLsb' 4 2 = Direction.down.code)

/-! ## Composition commands -/

/-- R150: ADDSLOT completes while a slot is free: the next slot gets the offset, NREG grows by one, the answer is the slot
number, nothing else changes; with a full table it faults; its words; its example. -/
def Obligations.AddslotRegistersNextSlot : Prop :=
  (∀ (a : Pos) (s : State), s.Inv → s.running → s.nreg ≠ s.params.nSlots →
    ∃ t, exec (.addslot a) s = .next t ∧ t.nreg = s.nreg + 1 ∧ t.offAt s.nreg = a ∧ t.accAt s.nreg = [] ∧
      (∀ k, k ≠ s.nreg → t.offAt k = s.offAt k) ∧ t.output = s.output ++ [(0x00#8 ++ BitVec.ofNat 64 s.nreg : BitVec 72)] ∧
      t = { s with nreg := t.nreg, off := t.off, output := t.output }) ∧
  (∀ (a : Pos) (s : State), s.running → s.nreg = s.params.nSlots →
    exec (.addslot a) s = .next (latched 0x03 (encode (.addslot a)) s)) ∧
  wordsOf 0x30 (unusedZero · .addslot) (fun f => .addslot ⟨f.ax, f.ay⟩) ∧
  (encode (.addslot ⟨1, 1⟩) = 0x00000000000100010000000000000030 ∧
    encode (.addslot ⟨5, 2⟩) = 0x00000000000200050000000000000030 ∧
    ∃ t : State, Sys2Proof.core.run 2 ((State.init small).present [.addslot ⟨1, 1⟩, .addslot ⟨5, 2⟩]) = .next t ∧
      t.output = [0, 1])

/-- R152, R223: PUSH completes for a registered slot while the accumulator has room: the slot's list gets the pixel at its
end, the answer is the new count, nothing else changes, the raster included; otherwise it faults, BadSlot first; its words;
its example. -/
def Obligations.PushAppendsOnePixel : Prop :=
  (∀ slot (a : Pos) data (s : State), s.Inv → s.running → slot.toNat < s.nreg → s.accCnt ≠ s.params.accDepth →
    ∃ t, exec (.push slot a data) s = .next t ∧ t.accAt slot.toNat = s.accAt slot.toNat ++ [⟨a, data⟩] ∧
      (∀ k, k ≠ slot.toNat → t.accAt k = s.accAt k) ∧ t.accCnt = s.accCnt + 1 ∧
      t.output = s.output ++ [(0x00#8 ++ BitVec.ofNat 64 (s.accCnt + 1) : BitVec 72)] ∧
      (∀ i, t.rasterAt i = s.rasterAt i) ∧ t = { s with acc := t.acc, output := t.output }) ∧
  (∀ slot (a : Pos) data (s : State), s.running → s.nreg ≤ slot.toNat →
    exec (.push slot a data) s = .next (latched 0x02 (encode (.push slot a data)) s)) ∧
  (∀ slot (a : Pos) data (s : State), s.running → slot.toNat < s.nreg → s.accCnt = s.params.accDepth →
    exec (.push slot a data) s = .next (latched 0x04 (encode (.push slot a data)) s)) ∧
  wordsOf 0x31 (unusedZero · .push) (fun f => .push f.slot ⟨f.ax, f.ay⟩ f.data) ∧
  (encode (.push 1 ⟨0, 0⟩ 0xFFFFFFFF) = 0x0000000000000000FFFFFFFF00000131 ∧
    ∃ t : State, Sys2Proof.core.run 3 ((State.init small).present
      [.addslot ⟨1, 1⟩, .addslot ⟨5, 2⟩, .push 1 ⟨0, 0⟩ 0xFFFFFFFF]) = .next t ∧ t.output = [0, 1, 1])

/-- R154, R155, R156: RENDER completes: each cell below NCELLS holds the last write of the loop to it, or what it held; no
other cell changes; every list is emptied; OOB is set if a write was dropped and kept otherwise; the answer counts the cells
written and the writes dropped, which together are ACCCNT; nothing else changes; its words; its example. -/
def Obligations.RenderWritesInOrderAndEmpties : Prop :=
  (∀ s : State, s.Inv → s.running → ∃ t, exec .render s = .next t ∧
      (∀ i, t.rasterAt i = (lastWrite i (inRange s)).getD (s.rasterAt i)) ∧
      (∀ k, t.accAt k = []) ∧ t.accCnt = 0 ∧
      t.statusOob = (s.statusOob || decide (outOfRange s ≠ [])) ∧
      t.output = s.output ++
        [(0x00#8 ++ (BitVec.ofNat 32 (outOfRange s).length ++ BitVec.ofNat 32 (inRange s).length) : BitVec 72)] ∧
      (inRange s).length + (outOfRange s).length = s.accCnt ∧ (writesOf s).length ≤ s.params.accDepth ∧
      t = { s with raster := t.raster, acc := t.acc, statusOob := t.statusOob, output := t.output }) ∧
  wordsOf 0x32 (unusedZero · .render) (fun _ => .render) ∧
  (encode .render = 0x00000000000000000000000000000032 ∧
    ∃ t : State, Sys2Proof.core.run 5 ((State.init small).present [.addslot ⟨1, 1⟩, .addslot ⟨5, 2⟩,
      .push 1 ⟨0, 0⟩ 0xFFFFFFFF, .push 0 ⟨0, 0⟩ 0x00FF0000, .render]) = .next t ∧
      t.rasterAt 9 = 0x00FF0000 ∧ t.rasterAt 21 = 0xFFFFFFFF ∧ t.output.getLast? = some 2)

/-- R160, R162: the index of a write is computed exactly; where PADD reports no wrap on either axis, the translation is
PADD's result. -/
def Obligations.RenderTranslationIsExact : Prop :=
  ∀ (p : Params) (off pos : Pos),
    cellIndex p off pos = (pos.y.toNat + off.y.toNat) * p.width.toNat + (pos.x.toNat + off.x.toNat) ∧
    ((addPos pos off).wrapX = false → (addPos pos off).wrapY = false →
      cellIndex p off pos = (addPos pos off).pos.y.toNat * p.width.toNat + (addPos pos off).pos.x.toNat)

/-- R51, R52, R258: row-major: a cell below NCELLS stands for the column `i mod WIDTH` and the row `i div WIDTH`; a pixel
whose x is at or beyond WIDTH is written all the same, into a later row, when its index is below NCELLS. -/
def Obligations.IndexIsRowMajorWithoutClipping : Prop :=
  (∀ (p : Params) (pos : Pos), pos.x.toNat < p.width.toNat →
    cellIndex p ⟨0, 0⟩ pos % p.width.toNat = pos.x.toNat ∧ cellIndex p ⟨0, 0⟩ pos / p.width.toNat = pos.y.toNat ∧
    (cellIndex p ⟨0, 0⟩ pos < p.nCells ↔ pos.y.toNat < p.height.toNat)) ∧
  (∀ (s : State) (pos : Pos) (c : Color), s.Inv → s.running → s.nreg = 1 → s.acc[0]? = some [⟨pos, c⟩] →
    s.params.width.toNat ≤ pos.x.toNat + (s.offAt 0).x.toNat → cellIndex s.params (s.offAt 0) pos < s.params.nCells →
    ∃ t, exec .render s = .next t ∧ t.rasterAt (cellIndex s.params (s.offAt 0) pos) = c ∧
      pos.y.toNat + (s.offAt 0).y.toNat < cellIndex s.params (s.offAt 0) pos / s.params.width.toNat)

/-- R157: RDPIX completes for an index below NCELLS, answers the cell (RASTER_INIT where nothing was written since reset),
and changes nothing; otherwise it faults BadIndex; its words; its example. -/
def Obligations.RdpixReadsOneCell : Prop :=
  (∀ index (s : State), s.running → index.toNat < s.params.width.toNat * s.params.height.toNat →
    exec (.rdpix index) s = .next (answered ((s.rasterAt index.toNat).setWidth 64) s)) ∧
  (∀ index (s : State), s.running → index.toNat < s.params.width.toNat * s.params.height.toNat →
    s.raster.read? index.toNat = none →
    exec (.rdpix index) s = .next (answered ((Config.rasterInit s.resets index.toNat).setWidth 64) s)) ∧
  (∀ index (s : State), s.running → s.params.width.toNat * s.params.height.toNat ≤ index.toNat →
    exec (.rdpix index) s = .next (latched 0x05 (encode (.rdpix index)) s)) ∧
  wordsOf 0x33 (unusedZero · .rdpix) (fun f => .rdpix f.data) ∧
  (encode (.rdpix 9) = 0x00000000000000000000000900000033 ∧
    ∃ t : State, Sys2Proof.core.run 6 ((State.init small).present [.addslot ⟨1, 1⟩, .addslot ⟨5, 2⟩,
      .push 1 ⟨0, 0⟩ 0xFFFFFFFF, .push 0 ⟨0, 0⟩ 0x00FF0000, .render, .rdpix 9]) = .next t ∧
      t.output.getLast? = some 0x0000000000FF0000)

/-- R158, R30, R31: RDCSR completes in every state, halted or not, answers the CSR of the map, 0 for an unimplemented
number, and changes nothing; its words; its examples. -/
def Obligations.RdcsrReadsTheCsrMap : Prop :=
  (∀ n (s : State), ∃ v : BitVec 32, exec (.rdcsr n) s = .next (answered (v.setWidth 64) s) ∧
    (n = 0x00 → v = 0x46424301) ∧
    (n = 0x01 → v.getLsbD 0 = s.statusFault ∧ v.getLsbD 1 = s.statusOob ∧ v.extractLsb' 2 30 = 0) ∧
    (n = 0x02 → v.extractLsb' 0 8 = s.cause ∧ v.extractLsb' 8 24 = 0) ∧
    (n = 0x03 → s.Inv → v.toNat = s.nreg) ∧
    (n = 0x04 → s.Inv → v.toNat = s.accCnt) ∧
    (n = 0x05 → v.toNat = s.params.width.toNat) ∧
    (n = 0x06 → v.toNat = s.params.height.toNat) ∧
    (n = 0x07 → v.toNat = s.params.nSlots) ∧
    (n = 0x08 → v.toNat = s.params.accDepth) ∧
    (n = 0x09 → v = s.fcmd.extractLsb' 0 32) ∧ (n = 0x0A → v = s.fcmd.extractLsb' 32 32) ∧
    (n = 0x0B → v = s.fcmd.extractLsb' 64 32) ∧ (n = 0x0C → v = s.fcmd.extractLsb' 96 32) ∧
    (∀ k, k < s.params.nSlots → n.toNat = 0x80 + k →
      v.extractLsb' 0 16 = (s.offAt k).x ∧ v.extractLsb' 16 16 = (s.offAt k).y) ∧
    (0x0D ≤ n.toNat → n.toNat < 0x80 → v = 0) ∧
    (0x80 + s.params.nSlots ≤ n.toNat → v = 0)) ∧
  wordsOf 0x34 (unusedZero · .rdcsr) (fun f => .rdcsr f.slot) ∧
  (encode (.rdcsr 0x04) = 0x00000000000000000000000000000434 ∧ encode (.rdcsr 0x81) = 0x00000000000000000000000000008134 ∧
    ∃ t : State, Sys2Proof.core.run 6 ((State.init small).present [.addslot ⟨1, 1⟩, .addslot ⟨5, 2⟩,
      .push 1 ⟨0, 0⟩ 0xFFFFFFFF, .push 0 ⟨0, 0⟩ 0x00FF0000, .rdcsr 0x04, .rdcsr 0x81]) = .next t ∧
      t.output = [0, 1, 1, 2, 2, 0x0000000000020005])

/-! ## Rules about the whole block -/

/-- R20: the channel, position and bounds commands are pure functions of their word: in any two running states they give
the same response, and a completed one changes no state. -/
def Obligations.PureCommandsDependOnTheirWordOnly : Prop :=
  ∀ (i : Instr) (s s' : State), i.mnemonic ∈ [Mnemonic.getch, .setch, .mapch, .padd, .psub, .pstep, .dinv, .edges] →
    s.running → s'.running → ∃ (t t' : State) (r : Response), exec i s = .next t ∧ exec i s' = .next t' ∧
      t.output = s.output ++ [r] ∧ t'.output = s'.output ++ [r] ∧
      (r.extractLsb' 64 8 = 0 → t = { s with output := t.output })

/-- R24: the content of the accumulator is hidden: in two states that agree on everything but the pixels held, and hold
equally many, every command but RENDER gives the same response and leaves two states that again agree on everything but the
pixels held, and hold equally many. -/
def Obligations.AccumulatorContentIsHidden : Prop :=
  ∀ (i : Instr) (s s' t t' : State), s.Inv → s'.Inv → s' = { s with acc := s'.acc } → s.accCnt = s'.accCnt →
    i ≠ .render → exec i s = .next t → exec i s' = .next t' →
    t.output = t'.output ∧ t' = { t with acc := t'.acc } ∧ t.accCnt = t'.accCnt

/-- R22, R23, R25, R61: only ADDSLOT writes NREG and OFF, only PUSH and RENDER change ACC, only RENDER changes a cell or
OOB. -/
def Obligations.WhoWritesWhat : Prop :=
  ∀ (i : Instr) (s t : State), exec i s = .next t →
    (i.mnemonic ≠ .addslot → t.nreg = s.nreg ∧ t.off = s.off) ∧
    (i.mnemonic ≠ .push → i.mnemonic ≠ .render → t.acc = s.acc) ∧
    (i.mnemonic ≠ .render → t.raster = s.raster ∧ (∀ k, t.rasterAt k = s.rasterAt k) ∧ t.statusOob = s.statusOob)

/-- R57: a read in range has no side effect, and a second read answers the same. -/
def Obligations.ReadsHaveNoSideEffect : Prop :=
  (∀ index (s : State), s.running → index.toNat < s.params.nCells →
    ∃ d : BitVec 64, exec (.rdpix index) s = .next (answered d s) ∧
      exec (.rdpix index) (answered d s) = .next (answered d (answered d s))) ∧
  (∀ n (s : State), ∃ d : BitVec 64, exec (.rdcsr n) s = .next (answered d s) ∧
    exec (.rdcsr n) (answered d s) = .next (answered d (answered d s)))

/-- R26: FAULT and OOB are sticky: no command clears them; and OOB changes no behaviour: with OOB flipped, every command
but RDCSR of STATUS does the same. -/
def Obligations.StatusFlagsAreSticky : Prop :=
  (∀ (s t : State) (w : Command) (rest : List HostEvent), s.input = .command w :: rest → step s = .next t →
    (s.statusFault = true → t.statusFault = true) ∧ (s.statusOob = true → t.statusOob = true)) ∧
  (∀ (i : Instr) (s t : State), i ≠ .rdcsr 0x01 → exec i s = .next t →
    ∃ b, exec i { s with statusOob := !s.statusOob } = .next { t with statusOob := b })

/-- R250, R35: a reset event puts every piece of the block's state at its reset value, and is the only event that clears
FAULT or OOB or removes a slot. That a cell then reads RASTER_INIT as the constant of log entry 2 selected by the count of
reset events, and that the responses given and the events to come stay as they are (log entry 13), are the model's
choices. -/
def Obligations.ResetEventRestoresResetValues : Prop :=
  (∀ (s : State) (rest : List HostEvent), s.input = .rst :: rest → ∃ t, step s = .next t ∧
    t.nreg = 0 ∧ (∀ k, t.offAt k = ⟨0, 0⟩) ∧ (∀ k, t.accAt k = []) ∧ t.accCnt = 0 ∧ t.statusFault = false ∧
    t.statusOob = false ∧ t.cause = 0 ∧ t.fcmd = 0 ∧ t.params = s.params ∧ t.resets = s.resets + 1 ∧
    (∀ i, t.rasterAt i = Config.rasterInit (s.resets + 1) i) ∧ t.output = s.output ∧ t.input = rest) ∧
  (∀ (s t : State) (w : Command) (rest : List HostEvent), s.input = .command w :: rest → step s = .next t →
    (s.statusFault = true → t.statusFault = true) ∧ (s.statusOob = true → t.statusOob = true) ∧ s.nreg ≤ t.nreg)

/-- R35: the state right after reset; every cell reads RASTER_INIT, the free value of log entry 2. -/
def Obligations.ResetStateValues : Prop :=
  State.reset.nreg = 0 ∧ (∀ k, State.reset.offAt k = ⟨0, 0⟩) ∧ (∀ k, State.reset.accAt k = []) ∧ State.reset.accCnt = 0 ∧
  State.reset.statusFault = false ∧ State.reset.statusOob = false ∧ State.reset.cause = 0 ∧ State.reset.fcmd = 0 ∧
  (∀ i, State.reset.rasterAt i = Config.rasterInit State.reset.resets i) ∧
  State.reset.csr 0x00 = 0x46424301 ∧ State.reset.csr 0x01 = 0 ∧ State.reset.csr 0x02 = 0 ∧ State.reset.csr 0x03 = 0 ∧
  State.reset.csr 0x04 = 0 ∧ (State.reset.csr 0x05).toNat = State.reset.params.width.toNat ∧
  (State.reset.csr 0x06).toNat = State.reset.params.height.toNat ∧
  (State.reset.csr 0x07).toNat = State.reset.params.nSlots ∧ (State.reset.csr 0x08).toNat = State.reset.params.accDepth

/-- R251: after a reset event every cell reads the one function RASTER_INIT of that event (a free value, log entry 2). That
two states with equal reset counts read alike after it, whatever their rasters held, is the model's choice of log entry 2
(RASTER_INIT is selected by the count alone), not a sentence of the spec. -/
def Obligations.RasterAfterResetIsFree : Prop :=
  ∀ (s s' : State) (rest rest' : List HostEvent), s.input = .rst :: rest → s'.input = .rst :: rest' →
    s.resets = s'.resets → ∃ t t', step s = .next t ∧ step s' = .next t' ∧
      ∀ i, t.rasterAt i = Config.rasterInit t.resets i ∧ t.rasterAt i = t'.rasterAt i

/-- R22, R23, R25, R28: every step, reset events and faults included, keeps the invariant. -/
def Obligations.StepKeepsInvariant : Prop :=
  ∀ s t : State, s.Inv → step s = .next t → t.Inv

/-- R35, R22, R23, R28: the invariant holds right after reset, for every choice of the parameters. -/
def Obligations.ResetMeetsInvariant : Prop :=
  State.reset.Inv ∧ ∀ p : Params, (State.init p).Inv

/-- R7, R33, R34: no step changes a parameter. -/
def Obligations.StepKeepsParameters : Prop :=
  ∀ s t : State, step s = .next t → t.params = s.params

/-- R161: two one-pixel instances at different offsets: each emitted global pixel equals its local position plus its
offset, whatever the state of the raster before. -/
def Obligations.TwoInstancesLandAtTheirOffsets : Prop :=
  ∀ (s : State) (o0 o1 p0 p1 : Pos) (c0 c1 : Color), s.Inv → s.running → s.nreg = 0 → 2 ≤ s.params.nSlots →
    2 ≤ s.params.accDepth →
    (p0.y.toNat + o0.y.toNat) * s.params.width.toNat + (p0.x.toNat + o0.x.toNat) < s.params.nCells →
    (p1.y.toNat + o1.y.toNat) * s.params.width.toNat + (p1.x.toNat + o1.x.toNat) < s.params.nCells →
    (p0.y.toNat + o0.y.toNat) * s.params.width.toNat + (p0.x.toNat + o0.x.toNat) ≠
      (p1.y.toNat + o1.y.toNat) * s.params.width.toNat + (p1.x.toNat + o1.x.toNat) →
    ∃ t : State, Sys2Proof.core.run 5 (s.present [.addslot o0, .addslot o1, .push 0 p0 c0, .push 1 p1 c1, .render]) =
        .next t ∧
      t.rasterAt ((p0.y.toNat + o0.y.toNat) * s.params.width.toNat + (p0.x.toNat + o0.x.toNat)) = c0 ∧
      t.rasterAt ((p1.y.toNat + o1.y.toNat) * s.params.width.toNat + (p1.x.toNat + o1.x.toNat)) = c1

/-- R159, R60: two sequences of PUSHes that hand each slot the same pixels in the same order leave, after RENDER, the same
raster, the same flags and the same last response, however the slots are interleaved. -/
def Obligations.InterleavingOfPushesIsFree : Prop :=
  ∀ (s : State) (ps qs : List (BitVec 8 × Pixel)), s.Inv → s.running → (∀ p ∈ ps, p.1.toNat < s.nreg) →
    s.accCnt + ps.length ≤ s.params.accDepth →
    (∀ k : BitVec 8, ps.filter (fun p => p.1 == k) = qs.filter (fun p => p.1 == k)) →
    ∃ t u : State,
      Sys2Proof.core.run (ps.length + 1)
        (s.present (ps.map (fun p => Instr.push p.1 p.2.pos p.2.color) ++ [.render])) = .next t ∧
      Sys2Proof.core.run (qs.length + 1)
        (s.present (qs.map (fun p => Instr.push p.1 p.2.pos p.2.color) ++ [.render])) = .next u ∧
      t = { u with output := t.output } ∧ t.output.getLast? = u.output.getLast?

/-- R159, R182, R183: pushing every component's pixels and rendering leaves the raster the document's single loop over
(component, offset) pairs leaves, and so does every sequence of PUSHes that hands each slot its component's pixels in order,
however the slots are interleaved. -/
def Obligations.FrameRendersTheDocumentScene : Prop :=
  ∀ (s : State) (sc : Scene), s.Inv → s.running → s.accCnt = 0 → s.nreg = sc.children.length →
    (∀ k c, sc.children[k]? = some c → c.slot.toNat = k ∧ c.offset = s.offAt k) →
    (sc.documentWrites s.params).length ≤ s.params.accDepth →
    ∃ t : State, Sys2Proof.core.run (sc.pushCommands.length + 1) (s.present (sc.pushCommands ++ [.render])) = .next t ∧
      (∀ i, t.rasterAt i = if i < s.params.nCells then (lastWrite i (sc.documentWrites s.params)).getD (s.rasterAt i)
        else s.rasterAt i) ∧
      ∀ qs : List (BitVec 8 × Pixel), (∀ q ∈ qs, ∃ c ∈ sc.children, c.slot = q.1) →
        (∀ c ∈ sc.children, (qs.filter fun q => q.1 == c.slot).map Prod.snd = c.component.render) →
        ∃ u : State, Sys2Proof.core.run (qs.length + 1)
            (s.present (qs.map (fun q => Instr.push q.1 q.2.pos q.2.color) ++ [.render])) = .next u ∧
          ∀ i, u.rasterAt i = t.rasterAt i

/-- R181: registering the components one by one gives each the slot number its ADDSLOT answers, which is its place in the
list, with its offset in that slot; it changes only NREG, OFF and the ports, and it is what running the registration
commands does. -/
def Obligations.RegistrationNumbersTheSlots : Prop :=
  ∀ (children : List (Component × Pos)) (ticksPerFrame : Nat) (s : State), s.Inv → s.running → s.nreg = 0 →
    children.length ≤ s.params.nSlots →
    ∃ (sc : Scene) (t : State), Scene.new children ticksPerFrame s = some (sc, t) ∧
      sc.children.map (fun c => (c.component, c.offset)) = children ∧ sc.ticksPerFrame = ticksPerFrame ∧
      t.Inv ∧ t.nreg = sc.children.length ∧ t = { s with nreg := t.nreg, off := t.off, output := t.output } ∧
      (∀ k c, sc.children[k]? = some c → c.slot.toNat = k ∧ c.offset = t.offAt k) ∧
      Sys2Proof.core.run children.length (s.present sc.registerCommands) = .next t

/-- R183, R156: the frame loop, over any number of frames: all its commands complete without a fault, each cell holds the
last write to it of all frames shown or what it held before the first (nothing clears it in between), and the last NCELLS
responses are the cells of the last frame in order. -/
def Obligations.FrameLoopShowsEveryFrame : Prop :=
  ∀ (s : State) (sc : Scene) (draws : List FrameDraws) (scenes : List Scene), s.Inv → s.running → s.accCnt = 0 →
    s.nreg = sc.children.length → (∀ k c, sc.children[k]? = some c → c.slot.toNat = k ∧ c.offset = s.offAt k) →
    Scene.shown draws sc = some scenes → (∀ f ∈ scenes, (f.documentWrites s.params).length ≤ s.params.accDepth) →
    ∃ (cmds : List Instr) (t : State), Scene.loopCommands s.params.nCells draws sc = some cmds ∧
      Sys2Proof.core.run cmds.length (s.present cmds) = .next t ∧ t.running ∧ t.accCnt = 0 ∧ t.input = s.input ∧
      (∀ i, i < s.params.nCells →
        t.rasterAt i = (lastWrite i (scenes.flatMap (Scene.documentWrites s.params))).getD (s.rasterAt i)) ∧
      (scenes ≠ [] → ∃ before, t.output = before ++ (List.range s.params.nCells).map fun i =>
        (0x00#8 ++ (t.rasterAt i).setWidth 64 : BitVec 72))

/-- Log entry 3: how the raster list is written down cannot be observed: two states whose cells read alike and that agree
otherwise step to states whose cells read alike and that agree otherwise. -/
def Obligations.RasterListIsNotObservable : Prop :=
  ∀ s s' t t' : State, s.SameReadings s' → step s = .next t → step s' = .next t' → t.SameReadings t'

/-! ## The environment's pixel sources -/

/-- R187, R188: a Breather's tick steps its target channel by one, saturating, changes no other channel and not the
position, and flips the direction exactly when the value after the step is 0 or 255. -/
def Obligations.BreatherStepsAndFlips : Prop :=
  (∀ (px : Pixel) (ch : Channel) (dir : Direction) (order : List Nat), ∃ (c : Color) (dir' : Direction),
    Component.tick order (.breather px ch dir) = some (.breather ⟨px.pos, c⟩ ch dir') ∧
    (slice c ch).toNat =
      (if dir = .up then min 255 ((slice px.color ch).toNat + 1) else (slice px.color ch).toNat - 1) ∧
    (∀ ch', ch' ≠ ch → slice c ch' = slice px.color ch') ∧
    dir' = (if (slice c ch).toNat = 0 ∨ (slice c ch).toNat = 255 then invertDir dir else dir)) ∧
  (Component.tick [] (.breather ⟨⟨2, 2⟩, 0xFF00FE00⟩ .green .up) = some (.breather ⟨⟨2, 2⟩, 0xFF00FF00⟩ .green .down) ∧
   Component.tick [] (.breather ⟨⟨2, 2⟩, 0xFF00FF00⟩ .green .down) = some (.breather ⟨⟨2, 2⟩, 0xFF00FE00⟩ .green .down) ∧
   Component.tick [] (.breather ⟨⟨2, 2⟩, 0xFF00FE00⟩ .green .down) = some (.breather ⟨⟨2, 2⟩, 0xFF00FD00⟩ .green .down) ∧
   Component.tick [] (.breather ⟨⟨2, 2⟩, 0xFF00FF00⟩ .green .up) = some (.breather ⟨⟨2, 2⟩, 0xFF00FF00⟩ .green .down))

/-- R193, R191: a FallingSand tick conserves the number of grains, and a single grain whose straight-down cell is in the
domain moves straight down, for either value of SAND_CLAIM_CHECK and every shuffle; and with a shuffle of its grains a
FallingSand always has a next one. -/
def Obligations.SandGrainsAreConserved : Prop :=
  (∀ (claim : Bool) (width height : Coord) (old : List Pos) (order : List Nat),
    order.Perm (List.range old.length) → (moveGrains claim width height old order).length = old.length) ∧
  (∀ (claim : Bool) (width height : Coord) (g : Pos), g.x.toNat < width.toNat → g.y.toNat + 1 < height.toNat →
    moveGrains claim width height [g] [0] = [⟨g.x, g.y + 1⟩]) ∧
  (∀ (claim : Bool) (width height : Coord) (color : Color) (old : List Pos) (order : List Nat),
    order.Perm (List.range old.length) → ∃ new, new.length = old.length ∧
      Component.tick order (.fallingSand old width height color claim) =
        some (.fallingSand new width height color claim))

/-- The model's choice (log entry 9): R191 draws a permutation of the grains' indices each tick, and for an order that is
none, a missing shuffle included, the model has no tick of a FallingSand. The spec does not speak of such an order. -/
def Obligations.SandHasNoTickWithoutAShuffle : Prop :=
  ∀ (claim : Bool) (width height : Coord) (color : Color) (old : List Pos) (order : List Nat),
    ¬ order.Perm (List.range old.length) →
      Component.tick order (.fallingSand old width height color claim) = none

/-- R192: with SAND_CLAIM_CHECK true, distinct grains stay distinct whatever the shuffle. -/
def Obligations.SandClaimCheckKeepsGrainsDistinct : Prop :=
  ∀ (width height : Coord) (old : List Pos) (order : List Nat), old.Nodup → order.Perm (List.range old.length) →
    (moveGrains true width height old order).Nodup

/-- R197, R195, R196: a Laser's trail has length min(ticks + 1, 10) after any number of ticks, and the worked example. -/
def Obligations.LaserTrailGrowsToTen : Prop :=
  (∀ (width height : Coord) (color : Color) (n : Nat), width ≠ 0 → height ≠ 0 →
    ∃ trail lh lv, laserAfter width height color n = some (.laser width height trail lh lv color) ∧
      trail.length = min (n + 1) 10) ∧
  (∀ color, laserAfter 10 10 color 1 = some (.laser 10 10 [⟨0, 0⟩, ⟨1, 1⟩] .right .down color))
end

