-- ==== Sys2Proof/Laws/Decode.lean ====
section
/-! SUPPORT. The command word as fields and back, the masks as fields, and what the decoder answers. -/

namespace Sys2Proof

/-! ## Words and fields -/

theorem extractLsb'_append_high {v w start len : Nat} {xhi : BitVec v} {xlo : BitVec w} {r : BitVec len} (h : w ≤ start)
    (hr : xhi.extractLsb' (start - w) len = r) : (xhi ++ xlo).extractLsb' start len = r :=
  (BitVec.extractLsb'_append_eq_of_le h).trans hr

theorem Fields.unpack_pack (f : Fields) : Fields.unpack f.pack = f := by
  obtain ⟨op, slot, ch, dir, fn, rsv, val, data, ax, ay, bx, bh⟩ := f
  have h (k n) : (Fields.pack ⟨op, slot, ch, dir, fn, rsv, val, data, ax, ay, bx, bh⟩).extractLsb' k n =
    (bh ++ bx ++ ay ++ ax ++ data ++ val ++ rsv ++ fn ++ dir ++ ch ++ slot ++ op).extractLsb' k n := rfl
  simp only [Fields.unpack, h, Fields.mk.injEq]
  refine ⟨?_, ?_, ?_, ?_, ?_, ?_, ?_, ?_, ?_, ?_, ?_, ?_⟩
  · exact BitVec.extractLsb'_append_eq_right
  · exact extractLsb'_append_high (by decide) <| BitVec.extractLsb'_append_eq_right
  · exact extractLsb'_append_high (by decide) <| extractLsb'_append_high (by decide) <| BitVec.extractLsb'_append_eq_right
  · exact extractLsb'_append_high (by decide) <| extractLsb'_append_high (by decide) <| extractLsb'_append_high (by decide) <| BitVec.extractLsb'_append_eq_right
  · exact extractLsb'_append_high (by decide) <| extractLsb'_append_high (by decide) <| extractLsb'_append_high (by decide) <| extractLsb'_append_high (by decide) <| BitVec.extractLsb'_append_eq_right
  · exact extractLsb'_append_high (by decide) <| extractLsb'_append_high (by decide) <| extractLsb'_append_high (by decide) <| extractLsb'_append_high (by decide) <| extractLsb'_append_high (by decide) <| BitVec.extractLsb'_append_eq_right
  · exact extractLsb'_append_high (by decide) <| extractLsb'_append_high (by decide) <| extractLsb'_append_high (by decide) <| extractLsb'_append_high (by decide) <| extractLsb'_append_high (by decide) <| extractLsb'_append_high (by decide) <| BitVec.extractLsb'_append_eq_right
  · exact extractLsb'_append_high (by decide) <| extractLsb'_append_high (by decide) <| extractLsb'_append_high (by decide) <| extractLsb'_append_high (by decide) <| extractLsb'_append_high (by decide) <| extractLsb'_append_high (by decide) <| extractLsb'_append_high (by decide) <| BitVec.extractLsb'_append_eq_right
  · exact extractLsb'_append_high (by decide) <| extractLsb'_append_high (by decide) <| extractLsb'_append_high (by decide) <| extractLsb'_append_high (by decide) <| extractLsb'_append_high (by decide) <| extractLsb'_append_high (by decide) <| extractLsb'_append_high (by decide) <| extractLsb'_append_high (by decide) <| BitVec.extractLsb'_append_eq_right
  · exact extractLsb'_append_high (by decide) <| extractLsb'_append_high (by decide) <| extractLsb'_append_high (by decide) <| extractLsb'_append_high (by decide) <| extractLsb'_append_high (by decide) <| extractLsb'_append_high (by decide) <| extractLsb'_append_high (by decide) <| extractLsb'_append_high (by decide) <| extractLsb'_append_high (by decide) <| BitVec.extractLsb'_append_eq_right
  · exact extractLsb'_append_high (by decide) <| extractLsb'_append_high (by decide) <| extractLsb'_append_high (by decide) <| extractLsb'_append_high (by decide) <| extractLsb'_append_high (by decide) <| extractLsb'_append_high (by decide) <| extractLsb'_append_high (by decide) <| extractLsb'_append_high (by decide) <| extractLsb'_append_high (by decide) <| extractLsb'_append_high (by decide) <| BitVec.extractLsb'_append_eq_right
  · exact extractLsb'_append_high (by decide) <| extractLsb'_append_high (by decide) <| extractLsb'_append_high (by decide) <| extractLsb'_append_high (by decide) <| extractLsb'_append_high (by decide) <| extractLsb'_append_high (by decide) <| extractLsb'_append_high (by decide) <| extractLsb'_append_high (by decide) <| extractLsb'_append_high (by decide) <| extractLsb'_append_high (by decide) <| extractLsb'_append_high (by decide) <| BitVec.extractLsb'_eq_self

theorem Fields.pack_unpack (c : Command) : (Fields.unpack c).pack = c := by
  show (c.extractLsb' 112 16 ++ c.extractLsb' 96 16 ++ c.extractLsb' 80 16 ++ c.extractLsb' 64 16 ++ c.extractLsb' 32 32
    ++ c.extractLsb' 24 8 ++ c.extractLsb' 22 2 ++ c.extractLsb' 20 2 ++ c.extractLsb' 18 2 ++ c.extractLsb' 16 2
    ++ c.extractLsb' 8 8 ++ c.extractLsb' 0 8) = c
  rw [BitVec.extractLsb'_append_extractLsb'_eq_extractLsb' (by rfl)]
  rw [BitVec.extractLsb'_append_extractLsb'_eq_extractLsb' (by rfl)]
  rw [BitVec.extractLsb'_append_extractLsb'_eq_extractLsb' (by rfl)]
  rw [BitVec.extractLsb'_append_extractLsb'_eq_extractLsb' (by rfl)]
  rw [BitVec.extractLsb'_append_extractLsb'_eq_extractLsb' (by rfl)]
  rw [BitVec.extractLsb'_append_extractLsb'_eq_extractLsb' (by rfl)]
  rw [BitVec.extractLsb'_append_extractLsb'_eq_extractLsb' (by rfl)]
  rw [BitVec.extractLsb'_append_extractLsb'_eq_extractLsb' (by rfl)]
  rw [BitVec.extractLsb'_append_extractLsb'_eq_extractLsb' (by rfl)]
  rw [BitVec.extractLsb'_append_extractLsb'_eq_extractLsb' (by rfl)]
  rw [BitVec.extractLsb'_append_extractLsb'_eq_extractLsb' (by rfl)]
  exact BitVec.extractLsb'_eq_self

/-- Fields masked, field by field. -/
def Fields.and (f g : Fields) : Fields where
  op := f.op &&& g.op
  slot := f.slot &&& g.slot
  ch := f.ch &&& g.ch
  dir := f.dir &&& g.dir
  fn := f.fn &&& g.fn
  rsv := f.rsv &&& g.rsv
  val := f.val &&& g.val
  data := f.data &&& g.data
  ax := f.ax &&& g.ax
  ay := f.ay &&& g.ay
  bx := f.bx &&& g.bx
  bh := f.bh &&& g.bh
/-- The mask of a word, field by field. -/
theorem Fields.pack_and (f g : Fields) : f.pack &&& g.pack = (f.and g).pack := by
  have h (f : Fields) : f.pack = (f.bh ++ f.bx ++ f.ay ++ f.ax ++ f.data ++ f.val ++ f.rsv ++ f.fn ++ f.dir ++ f.ch ++ f.slot ++ f.op) := rfl
  refine (BitVec.and_append (x₁ := f.bh ++ f.bx ++ f.ay ++ f.ax ++ f.data ++ f.val ++ f.rsv ++ f.fn ++ f.dir ++ f.ch ++ f.slot)
   (x₂ := g.bh ++ g.bx ++ g.ay ++ g.ax ++ g.data ++ g.val ++ g.rsv ++ g.fn ++ g.dir ++ g.ch ++ g.slot)).trans ?_
  simp only [BitVec.and_append]
  rfl

theorem Fields.pack_injective {f g : Fields} (h : f.pack = g.pack) : f = g := by
  rw [← Fields.unpack_pack f, h, Fields.unpack_pack]

theorem Fields.unpack_op (w : Command) : (Fields.unpack w).op = w.extractLsb' 0 8 := rfl

/-! ## The masks of R78, field by field -/

/-- The fields of a row's mask. -/
def Mnemonic.maskFields : Mnemonic → Fields
  | .getch => ⟨255, 255, 0, 3, 3, 3, 255, 0, 65535, 65535, 65535, 65535⟩
  | .setch => ⟨255, 255, 0, 3, 3, 3, 0, 0, 0, 0, 65535, 65535⟩
  | .mapch => ⟨255, 255, 0, 3, 2, 3, 255, 0, 0, 0, 65535, 65535⟩
  | .padd => ⟨255, 255, 3, 3, 3, 3, 255, 4294967295, 0, 0, 0, 0⟩
  | .psub => ⟨255, 255, 3, 3, 3, 3, 255, 4294967295, 0, 0, 0, 0⟩
  | .pstep => ⟨255, 255, 3, 0, 3, 3, 255, 4294967295, 0, 0, 65535, 65535⟩
  | .dinv => ⟨255, 255, 3, 0, 3, 3, 255, 4294967295, 65535, 65535, 65535, 65535⟩
  | .edges => ⟨255, 255, 3, 3, 3, 3, 255, 4294967295, 0, 0, 0, 0⟩
  | .addslot => ⟨255, 255, 3, 3, 3, 3, 255, 4294967295, 0, 0, 65535, 65535⟩
  | .push => ⟨255, 0, 3, 3, 3, 3, 255, 0, 0, 0, 65535, 65535⟩
  | .render => ⟨255, 255, 3, 3, 3, 3, 255, 4294967295, 65535, 65535, 65535, 65535⟩
  | .rdpix => ⟨255, 255, 3, 3, 3, 3, 255, 0, 65535, 65535, 65535, 65535⟩
  | .rdcsr => ⟨255, 0, 3, 3, 3, 3, 255, 4294967295, 65535, 65535, 65535, 65535⟩

theorem Mnemonic.pack_maskFields (m : Mnemonic) : m.maskFields.pack = m.maskWord := by
  cases m <;> decide

theorem Mnemonic.pack_op (m : Mnemonic) : Fields.pack { op := m.opcode } = m.matchWord := by
  cases m <;> decide

/-- A word matches a row exactly when its fields, masked, are the row's opcode and zeros. -/
theorem Mnemonic.matches_iff (m : Mnemonic) (w : Command) :
    w &&& m.maskWord = m.matchWord ↔ (Fields.unpack w).and m.maskFields = { op := m.opcode } := by
  rw [← Mnemonic.pack_maskFields, ← Mnemonic.pack_op]
  conv => lhs; lhs; lhs; rw [← Fields.pack_unpack w]
  rw [Fields.pack_and]
  exact ⟨Fields.pack_injective, fun h => by rw [h]⟩

@[simp] theorem and_ones2 (x : BitVec 2) : x &&& 3#2 = x := BitVec.and_allOnes

@[simp] theorem and_ones8 (x : BitVec 8) : x &&& 255#8 = x := BitVec.and_allOnes

@[simp] theorem and_ones16 (x : BitVec 16) : x &&& 65535#16 = x := BitVec.and_allOnes

@[simp] theorem and_ones32 (x : BitVec 32) : x &&& 4294967295#32 = x := BitVec.and_allOnes

/-- The function code of MAPCH: bit 21 of the word is zero exactly when the code is 0 or 1 (R77). -/
theorem fn_high_zero_iff : ∀ fn : BitVec 2, fn &&& 2#2 = 0#2 ↔ fn = 0#2 ∨ fn = 1#2 := by decide

/-! ## The decoder -/

theorem Mnemonic.ofOpcode_opcode (m : Mnemonic) : Mnemonic.ofOpcode m.opcode = some m := by
  cases m <;> decide

theorem Mnemonic.opcode_of_ofOpcode {op : BitVec 8} {m : Mnemonic} (h : Mnemonic.ofOpcode op = some m) :
    m.opcode = op := by
  simpa using List.find?_some h

theorem Mnemonic.opcode_injective {m n : Mnemonic} (h : m.opcode = n.opcode) : m = n := by
  have := Mnemonic.ofOpcode_opcode m
  rw [h, Mnemonic.ofOpcode_opcode] at this
  exact (Option.some.inj this).symm

/-- What the decoder answers for a word with the opcode of row `m`. -/
theorem decode_of_opcode {w : Command} {m : Mnemonic} (h : w.extractLsb' 0 8 = m.opcode) :
    decode w = if (Fields.unpack w).and m.maskFields = { op := m.opcode } then .command (m.operands (Fields.unpack w))
      else .illegal (.mustBeZero m) := by
  unfold decode
  simp only [h, Mnemonic.ofOpcode_opcode, Mnemonic.matches_iff]

/-- What the decoder answers for a word whose opcode is in no row. -/
theorem decode_of_unknown {w : Command} (h : Mnemonic.ofOpcode (w.extractLsb' 0 8) = none) :
    decode w = .illegal .unknownOpcode := by
  simp only [decode, h]

/-- A legal word, said once: its row, its masked fields and its operands. -/
theorem decode_eq_command_iff {w : Command} {i : Instr} :
    decode w = .command i ↔ ∃ m : Mnemonic, (Fields.unpack w).and m.maskFields = { op := m.opcode } ∧
      i = m.operands (Fields.unpack w) := by
  constructor
  · intro h
    cases hm : Mnemonic.ofOpcode (w.extractLsb' 0 8) with
    | none => simp [decode_of_unknown hm] at h
    | some m =>
      rw [decode_of_opcode (Mnemonic.opcode_of_ofOpcode hm).symm] at h
      split at h
      · next hf => exact ⟨m, hf, by simpa using h.symm⟩
      · simp at h
  · rintro ⟨m, hf, rfl⟩
    have hop : w.extractLsb' 0 8 = m.opcode := by
      have := congrArg Fields.op hf
      cases m <;> simpa [Fields.and, Mnemonic.maskFields, Fields.unpack] using this
    rw [decode_of_opcode hop, if_pos hf]

/-- The row of a decoded command. -/
theorem Mnemonic.operands_mnemonic (m : Mnemonic) (f : Fields) : (m.operands f).mnemonic = m := by
  cases m <;> rfl

/-! ## Codes -/

@[simp] theorem Channel.ofCode_code (ch : Channel) : Channel.ofCode ch.code = ch := by cases ch <;> rfl

theorem Channel.code_ofCode : ∀ c : BitVec 2, (Channel.ofCode c).code = c := by decide

@[simp] theorem Direction.ofCode_code (d : Direction) : Direction.ofCode d.code = d := by cases d <;> rfl

theorem Direction.code_ofCode : ∀ c : BitVec 2, (Direction.ofCode c).code = c := by decide

end Sys2Proof
end

