-- ==== Sys2Proof/Laws/State.lean ====
section
/-! SUPPORT. The fields of the state after each of its updates, one lemma per field per update. -/

namespace Sys2Proof.Machine

variable (s : State)

/-! ### answer -/

@[simp] theorem State.answer_params (st : BitVec 8) (d : BitVec 64) : (s.answer st d).params = s.params := rfl
@[simp] theorem State.answer_nreg (st : BitVec 8) (d : BitVec 64) : (s.answer st d).nreg = s.nreg := rfl
@[simp] theorem State.answer_off (st : BitVec 8) (d : BitVec 64) : (s.answer st d).off = s.off := rfl
@[simp] theorem State.answer_acc (st : BitVec 8) (d : BitVec 64) : (s.answer st d).acc = s.acc := rfl
@[simp] theorem State.answer_raster (st : BitVec 8) (d : BitVec 64) : (s.answer st d).raster = s.raster := rfl
@[simp] theorem State.answer_statusFault (st : BitVec 8) (d : BitVec 64) : (s.answer st d).statusFault = s.statusFault := rfl
@[simp] theorem State.answer_statusOob (st : BitVec 8) (d : BitVec 64) : (s.answer st d).statusOob = s.statusOob := rfl
@[simp] theorem State.answer_cause (st : BitVec 8) (d : BitVec 64) : (s.answer st d).cause = s.cause := rfl
@[simp] theorem State.answer_fcmd (st : BitVec 8) (d : BitVec 64) : (s.answer st d).fcmd = s.fcmd := rfl
@[simp] theorem State.answer_resets (st : BitVec 8) (d : BitVec 64) : (s.answer st d).resets = s.resets := rfl
@[simp] theorem State.answer_input (st : BitVec 8) (d : BitVec 64) : (s.answer st d).input = s.input := rfl
@[simp] theorem State.answer_output (st : BitVec 8) (d : BitVec 64) : (s.answer st d).output = s.output ++ [responseWord st d] := rfl

/-! ### respond -/

@[simp] theorem State.respond_params (d : BitVec 64) : (s.respond d).params = s.params := rfl
@[simp] theorem State.respond_nreg (d : BitVec 64) : (s.respond d).nreg = s.nreg := rfl
@[simp] theorem State.respond_off (d : BitVec 64) : (s.respond d).off = s.off := rfl
@[simp] theorem State.respond_acc (d : BitVec 64) : (s.respond d).acc = s.acc := rfl
@[simp] theorem State.respond_raster (d : BitVec 64) : (s.respond d).raster = s.raster := rfl
@[simp] theorem State.respond_statusFault (d : BitVec 64) : (s.respond d).statusFault = s.statusFault := rfl
@[simp] theorem State.respond_statusOob (d : BitVec 64) : (s.respond d).statusOob = s.statusOob := rfl
@[simp] theorem State.respond_cause (d : BitVec 64) : (s.respond d).cause = s.cause := rfl
@[simp] theorem State.respond_fcmd (d : BitVec 64) : (s.respond d).fcmd = s.fcmd := rfl
@[simp] theorem State.respond_resets (d : BitVec 64) : (s.respond d).resets = s.resets := rfl
@[simp] theorem State.respond_input (d : BitVec 64) : (s.respond d).input = s.input := rfl
@[simp] theorem State.respond_output (d : BitVec 64) : (s.respond d).output = s.output ++ [responseWord 0x00 d] := rfl

/-! ### raise -/

@[simp] theorem State.raise_params (f : Cause) (w : Command) : (s.raise f w).params = s.params := rfl
@[simp] theorem State.raise_nreg (f : Cause) (w : Command) : (s.raise f w).nreg = s.nreg := rfl
@[simp] theorem State.raise_off (f : Cause) (w : Command) : (s.raise f w).off = s.off := rfl
@[simp] theorem State.raise_acc (f : Cause) (w : Command) : (s.raise f w).acc = s.acc := rfl
@[simp] theorem State.raise_raster (f : Cause) (w : Command) : (s.raise f w).raster = s.raster := rfl
@[simp] theorem State.raise_statusFault (f : Cause) (w : Command) : (s.raise f w).statusFault = true := rfl
@[simp] theorem State.raise_statusOob (f : Cause) (w : Command) : (s.raise f w).statusOob = s.statusOob := rfl
@[simp] theorem State.raise_cause (f : Cause) (w : Command) : (s.raise f w).cause = f.code := rfl
@[simp] theorem State.raise_fcmd (f : Cause) (w : Command) : (s.raise f w).fcmd = w := rfl
@[simp] theorem State.raise_resets (f : Cause) (w : Command) : (s.raise f w).resets = s.resets := rfl
@[simp] theorem State.raise_input (f : Cause) (w : Command) : (s.raise f w).input = s.input := rfl
@[simp] theorem State.raise_output (f : Cause) (w : Command) : (s.raise f w).output = s.output ++ [responseWord f.code 0] := rfl

/-! ### refuse -/

@[simp] theorem State.refuse_params : s.refuse.params = s.params := rfl
@[simp] theorem State.refuse_nreg : s.refuse.nreg = s.nreg := rfl
@[simp] theorem State.refuse_off : s.refuse.off = s.off := rfl
@[simp] theorem State.refuse_acc : s.refuse.acc = s.acc := rfl
@[simp] theorem State.refuse_raster : s.refuse.raster = s.raster := rfl
@[simp] theorem State.refuse_statusFault : s.refuse.statusFault = s.statusFault := rfl
@[simp] theorem State.refuse_statusOob : s.refuse.statusOob = s.statusOob := rfl
@[simp] theorem State.refuse_cause : s.refuse.cause = s.cause := rfl
@[simp] theorem State.refuse_fcmd : s.refuse.fcmd = s.fcmd := rfl
@[simp] theorem State.refuse_resets : s.refuse.resets = s.resets := rfl
@[simp] theorem State.refuse_input : s.refuse.input = s.input := rfl
@[simp] theorem State.refuse_output : s.refuse.output = s.output ++ [responseWord haltedStatus 0] := rfl

/-! ### register -/

@[simp] theorem State.register_params (v : Pos) : (s.register v).params = s.params := rfl
@[simp] theorem State.register_nreg (v : Pos) : (s.register v).nreg = s.nreg + 1 := rfl
@[simp] theorem State.register_off (v : Pos) : (s.register v).off = s.off.set s.nreg v := rfl
@[simp] theorem State.register_acc (v : Pos) : (s.register v).acc = s.acc := rfl
@[simp] theorem State.register_raster (v : Pos) : (s.register v).raster = s.raster := rfl
@[simp] theorem State.register_statusFault (v : Pos) : (s.register v).statusFault = s.statusFault := rfl
@[simp] theorem State.register_statusOob (v : Pos) : (s.register v).statusOob = s.statusOob := rfl
@[simp] theorem State.register_cause (v : Pos) : (s.register v).cause = s.cause := rfl
@[simp] theorem State.register_fcmd (v : Pos) : (s.register v).fcmd = s.fcmd := rfl
@[simp] theorem State.register_resets (v : Pos) : (s.register v).resets = s.resets := rfl
@[simp] theorem State.register_input (v : Pos) : (s.register v).input = s.input := rfl
@[simp] theorem State.register_output (v : Pos) : (s.register v).output = s.output := rfl

/-! ### append -/

@[simp] theorem State.append_params (k : Nat) (px : Pixel) : (s.append k px).params = s.params := rfl
@[simp] theorem State.append_nreg (k : Nat) (px : Pixel) : (s.append k px).nreg = s.nreg := rfl
@[simp] theorem State.append_off (k : Nat) (px : Pixel) : (s.append k px).off = s.off := rfl
@[simp] theorem State.append_acc (k : Nat) (px : Pixel) : (s.append k px).acc = s.acc.modify k fun l => l ++ [px] := rfl
@[simp] theorem State.append_raster (k : Nat) (px : Pixel) : (s.append k px).raster = s.raster := rfl
@[simp] theorem State.append_statusFault (k : Nat) (px : Pixel) : (s.append k px).statusFault = s.statusFault := rfl
@[simp] theorem State.append_statusOob (k : Nat) (px : Pixel) : (s.append k px).statusOob = s.statusOob := rfl
@[simp] theorem State.append_cause (k : Nat) (px : Pixel) : (s.append k px).cause = s.cause := rfl
@[simp] theorem State.append_fcmd (k : Nat) (px : Pixel) : (s.append k px).fcmd = s.fcmd := rfl
@[simp] theorem State.append_resets (k : Nat) (px : Pixel) : (s.append k px).resets = s.resets := rfl
@[simp] theorem State.append_input (k : Nat) (px : Pixel) : (s.append k px).input = s.input := rfl
@[simp] theorem State.append_output (k : Nat) (px : Pixel) : (s.append k px).output = s.output := rfl

/-! ### emptyAcc -/

@[simp] theorem State.emptyAcc_params : s.emptyAcc.params = s.params := rfl
@[simp] theorem State.emptyAcc_nreg : s.emptyAcc.nreg = s.nreg := rfl
@[simp] theorem State.emptyAcc_off : s.emptyAcc.off = s.off := rfl
@[simp] theorem State.emptyAcc_acc : s.emptyAcc.acc = s.acc.map fun _ => [] := rfl
@[simp] theorem State.emptyAcc_raster : s.emptyAcc.raster = s.raster := rfl
@[simp] theorem State.emptyAcc_statusFault : s.emptyAcc.statusFault = s.statusFault := rfl
@[simp] theorem State.emptyAcc_statusOob : s.emptyAcc.statusOob = s.statusOob := rfl
@[simp] theorem State.emptyAcc_cause : s.emptyAcc.cause = s.cause := rfl
@[simp] theorem State.emptyAcc_fcmd : s.emptyAcc.fcmd = s.fcmd := rfl
@[simp] theorem State.emptyAcc_resets : s.emptyAcc.resets = s.resets := rfl
@[simp] theorem State.emptyAcc_input : s.emptyAcc.input = s.input := rfl
@[simp] theorem State.emptyAcc_output : s.emptyAcc.output = s.output := rfl

/-! ### withNextEvent -/

@[simp] theorem State.withNextEvent_params (e : HostEvent) : (s.withNextEvent e).params = s.params := rfl
@[simp] theorem State.withNextEvent_nreg (e : HostEvent) : (s.withNextEvent e).nreg = s.nreg := rfl
@[simp] theorem State.withNextEvent_off (e : HostEvent) : (s.withNextEvent e).off = s.off := rfl
@[simp] theorem State.withNextEvent_acc (e : HostEvent) : (s.withNextEvent e).acc = s.acc := rfl
@[simp] theorem State.withNextEvent_raster (e : HostEvent) : (s.withNextEvent e).raster = s.raster := rfl
@[simp] theorem State.withNextEvent_statusFault (e : HostEvent) : (s.withNextEvent e).statusFault = s.statusFault := rfl
@[simp] theorem State.withNextEvent_statusOob (e : HostEvent) : (s.withNextEvent e).statusOob = s.statusOob := rfl
@[simp] theorem State.withNextEvent_cause (e : HostEvent) : (s.withNextEvent e).cause = s.cause := rfl
@[simp] theorem State.withNextEvent_fcmd (e : HostEvent) : (s.withNextEvent e).fcmd = s.fcmd := rfl
@[simp] theorem State.withNextEvent_resets (e : HostEvent) : (s.withNextEvent e).resets = s.resets := rfl
@[simp] theorem State.withNextEvent_input (e : HostEvent) : (s.withNextEvent e).input = e :: s.input := rfl
@[simp] theorem State.withNextEvent_output (e : HostEvent) : (s.withNextEvent e).output = s.output := rfl

/-! ### resetEvent -/

@[simp] theorem State.resetEvent_params : s.resetEvent.params = s.params := rfl
@[simp] theorem State.resetEvent_nreg : s.resetEvent.nreg = 0 := rfl
@[simp] theorem State.resetEvent_off : s.resetEvent.off = List.replicate s.params.nSlots ⟨0, 0⟩ := rfl
@[simp] theorem State.resetEvent_acc : s.resetEvent.acc = List.replicate s.params.nSlots [] := rfl
@[simp] theorem State.resetEvent_raster : s.resetEvent.raster = [] := rfl
@[simp] theorem State.resetEvent_statusFault : s.resetEvent.statusFault = false := rfl
@[simp] theorem State.resetEvent_statusOob : s.resetEvent.statusOob = false := rfl
@[simp] theorem State.resetEvent_cause : s.resetEvent.cause = 0 := rfl
@[simp] theorem State.resetEvent_fcmd : s.resetEvent.fcmd = 0 := rfl
@[simp] theorem State.resetEvent_resets : s.resetEvent.resets = s.resets + 1 := rfl
@[simp] theorem State.resetEvent_input : s.resetEvent.input = s.input := rfl
@[simp] theorem State.resetEvent_output : s.resetEvent.output = s.output := rfl

/-! ### init -/

@[simp] theorem State.init_params (p : Params) : (State.init p).params = p := rfl
@[simp] theorem State.init_nreg (p : Params) : (State.init p).nreg = 0 := rfl
@[simp] theorem State.init_off (p : Params) : (State.init p).off = List.replicate p.nSlots ⟨0, 0⟩ := rfl
@[simp] theorem State.init_acc (p : Params) : (State.init p).acc = List.replicate p.nSlots [] := rfl
@[simp] theorem State.init_raster (p : Params) : (State.init p).raster = [] := rfl
@[simp] theorem State.init_statusFault (p : Params) : (State.init p).statusFault = false := rfl
@[simp] theorem State.init_statusOob (p : Params) : (State.init p).statusOob = false := rfl
@[simp] theorem State.init_cause (p : Params) : (State.init p).cause = 0 := rfl
@[simp] theorem State.init_fcmd (p : Params) : (State.init p).fcmd = 0 := rfl
@[simp] theorem State.init_resets (p : Params) : (State.init p).resets = 0 := rfl
@[simp] theorem State.init_input (p : Params) : (State.init p).input = [] := rfl
@[simp] theorem State.init_output (p : Params) : (State.init p).output = [] := rfl

end Sys2Proof.Machine
end

