-- ==== Sys2Proof/Laws/Memory.lean ====
section
/-! SUPPORT. The raster list: a read after a write, the canonical form, the range of the listed cells. -/

namespace Sys2Proof.Machine

@[simp] theorem Memory.read?_nil (i : Nat) : Memory.read? [] i = none := rfl

theorem Memory.read?_cons (a : Nat) (v : Color) (m : Memory) (i : Nat) :
    Memory.read? ((a, v) :: m) i = if a = i then some v else Memory.read? m i := rfl

/-- A read at the index just written gives the value written. -/
@[simp] theorem Memory.read?_write_same (m : Memory) (i : Nat) (v : Color) :
    Memory.read? (Memory.write m i v) i = some v := by
  induction m with
  | nil => simp [Memory.write, Memory.read?]
  | cons e m ih =>
    obtain ⟨a, u⟩ := e
    unfold Memory.write
    split
    · simp [Memory.read?]
    · split
      · simp [Memory.read?]
      · next h => simp [Memory.read?, Ne.symm h, ih]

/-- A read at any other index gives what it gave before. -/
theorem Memory.read?_write_of_ne (m : Memory) {i j : Nat} (v : Color) (h : i ≠ j) :
    Memory.read? (Memory.write m i v) j = Memory.read? m j := by
  induction m with
  | nil => simp [Memory.write, Memory.read?, h]
  | cons e m ih =>
    obtain ⟨a, u⟩ := e
    unfold Memory.write
    split
    · simp [Memory.read?, h]
    · split
      · next h2 => simp [Memory.read?, h, ← h2]
      · simp [Memory.read?, ih]

/-- A read after a write, in one equation. -/
theorem Memory.read?_write (m : Memory) (i j : Nat) (v : Color) :
    Memory.read? (Memory.write m i v) j = if i = j then some v else Memory.read? m j := by
  split
  · next h => subst h; simp
  · next h => exact Memory.read?_write_of_ne m v h

theorem Memory.risesFrom_mono {lo lo' : Nat} (h : lo' ≤ lo) {m : Memory} (hm : Memory.risesFrom lo m = true) :
    Memory.risesFrom lo' m = true := by
  cases m with
  | nil => rfl
  | cons e m =>
    simp only [Memory.risesFrom, Bool.and_eq_true, decide_eq_true_eq] at hm ⊢
    exact ⟨by omega, hm.2⟩

theorem Memory.risesFrom_write {lo i : Nat} (v : Color) {m : Memory} (hi : lo ≤ i)
    (hm : Memory.risesFrom lo m = true) : Memory.risesFrom lo (Memory.write m i v) = true := by
  induction m generalizing lo with
  | nil => simpa [Memory.write, Memory.risesFrom] using hi
  | cons e m ih =>
    obtain ⟨a, u⟩ := e
    simp only [Memory.risesFrom, Bool.and_eq_true, decide_eq_true_eq] at hm
    unfold Memory.write
    split
    · simp only [Memory.risesFrom, Bool.and_eq_true, decide_eq_true_eq]
      exact ⟨hi, by omega, hm.2⟩
    · split
      · next h => simp only [Memory.risesFrom, Bool.and_eq_true, decide_eq_true_eq]; exact ⟨hi, h ▸ hm.2⟩
      · simp only [Memory.risesFrom, Bool.and_eq_true, decide_eq_true_eq]
        exact ⟨hm.1, ih (by omega) hm.2⟩

/-- A write keeps the canonical form. -/
theorem Memory.wf_write {m : Memory} (i : Nat) (v : Color) (h : m.wf = true) : (Memory.write m i v).wf = true :=
  Memory.risesFrom_write v (Nat.zero_le i) h

@[simp] theorem Memory.wf_nil : Memory.wf [] = true := rfl

/-- A write below `n` keeps every listed index below `n`. -/
theorem Memory.below_write {n i : Nat} {m : Memory} (v : Color) (hi : i < n) (h : m.below n = true) :
    (Memory.write m i v).below n = true := by
  induction m with
  | nil => simpa [Memory.write, Memory.below] using hi
  | cons e m ih =>
    obtain ⟨a, u⟩ := e
    simp only [Memory.below, Bool.and_eq_true, decide_eq_true_eq] at h
    unfold Memory.write
    split
    · simp [Memory.below, hi, h]
    · split
      · simp [Memory.below, hi, h]
      · simp [Memory.below, h, ih]

@[simp] theorem Memory.below_nil (n : Nat) : Memory.below n [] = true := rfl

/-- An index that is not below `n` is not listed. -/
theorem Memory.read?_eq_none_of_below {n i : Nat} {m : Memory} (h : m.below n = true) (hi : n ≤ i) :
    m.read? i = none := by
  induction m with
  | nil => rfl
  | cons e m ih =>
    obtain ⟨a, u⟩ := e
    simp only [Memory.below, Bool.and_eq_true, decide_eq_true_eq] at h
    have : a ≠ i := by omega
    simp [Memory.read?, this, ih h.2]

/-- What a cell reads depends on the raster list and the reset count alone. -/
theorem State.rasterAt_congr {s t : State} (hr : t.raster = s.raster) (hn : t.resets = s.resets) (i : Nat) :
    t.rasterAt i = s.rasterAt i := by
  simp [State.rasterAt, hr, hn]

end Sys2Proof.Machine
end

