-- ==== Sys2Proof/Laws/Ops.lean ====
section
/-! SUPPORT. What each shared operation does, once: the slot table, the accumulator, the halted test, one write of the
arbiter and all writes of a RENDER. -/

namespace Sys2Proof.Machine

/-! ## The halted test -/

@[simp] theorem State.unlessHalted_running {s : State} (h : s.statusFault = false) (body : State → State) :
    s.unlessHalted body = body s := by
  simp [State.unlessHalted, h]

@[simp] theorem State.unlessHalted_halted {s : State} (h : s.statusFault = true) (body : State → State) :
    s.unlessHalted body = s.refuse := by
  simp [State.unlessHalted, h]

/-- The two cases of the halted test. -/
theorem State.unlessHalted_cases (s : State) (body : State → State) :
    (s.statusFault = true ∧ s.unlessHalted body = s.refuse) ∨
      (s.statusFault = false ∧ s.unlessHalted body = body s) := by
  cases h : s.statusFault <;> simp [h]

/-! ## The slot table -/

theorem State.offAt_register {s : State} (v : Pos) (h : s.nreg < s.off.length) (k : Nat) :
    (s.register v).offAt k = if k = s.nreg then v else s.offAt k := by
  simp only [State.offAt, State.register_off, List.getElem?_set]
  by_cases hk : s.nreg = k
  · simp [hk, hk ▸ h]
  · simp [hk, Ne.symm hk]

theorem State.offAt_of_length_le {s : State} {k : Nat} (h : s.off.length ≤ k) : s.offAt k = ⟨0, 0⟩ := by
  simp [State.offAt, List.getElem?_eq_none h]

/-! ## The accumulator -/

theorem State.accAt_of_length_le {s : State} {k : Nat} (h : s.acc.length ≤ k) : s.accAt k = [] := by
  simp [State.accAt, List.getElem?_eq_none h]

theorem State.accAt_append {s : State} (px : Pixel) {j : Nat} (h : j < s.acc.length) (k : Nat) :
    (s.append j px).accAt k = if k = j then s.accAt j ++ [px] else s.accAt k := by
  simp only [State.accAt, State.append_acc, List.getElem?_modify]
  by_cases hk : j = k
  · subst hk; simp [List.getElem?_eq_getElem h]
  · simp [hk, Ne.symm hk]

theorem sum_length_modify (l : List (List Pixel)) (px : Pixel) {j : Nat} (h : j < l.length) :
    ((l.modify j fun q => q ++ [px]).map List.length).sum = (l.map List.length).sum + 1 := by
  induction l generalizing j with
  | nil => simp at h
  | cons q l ih =>
    cases j with
    | zero => simp; omega
    | succ j => simp [ih (by simpa using h)]; omega

theorem State.accCnt_append {s : State} (px : Pixel) {j : Nat} (h : j < s.acc.length) :
    (s.append j px).accCnt = s.accCnt + 1 :=
  sum_length_modify s.acc px h

@[simp] theorem State.accAt_emptyAcc (s : State) (k : Nat) : s.emptyAcc.accAt k = [] := by
  simp only [State.accAt, State.emptyAcc_acc, List.getElem?_map]
  cases s.acc[k]? <;> rfl

@[simp] theorem State.accCnt_emptyAcc (s : State) : s.emptyAcc.accCnt = 0 := by
  simp [State.accCnt]

/-- ACCCNT counts the lists of the registered slots only, when the others are empty. -/
theorem State.accCnt_eq_sum_range {s : State} (hl : s.nreg ≤ s.acc.length) (hu : ∀ k, s.nreg ≤ k → s.accAt k = []) :
    s.accCnt = ((List.range s.nreg).map fun k => (s.accAt k).length).sum := by
  have key : ∀ (l : List (List Pixel)) (n : Nat), n ≤ l.length → (∀ k, n ≤ k → (l[k]?).getD [] = []) →
      (l.map List.length).sum = ((List.range n).map fun k => ((l[k]?).getD []).length).sum := by
    intro l
    induction l with
    | nil => intro n hn _; simp at hn; simp [hn]
    | cons q l ih =>
      intro n hn hz
      cases n with
      | zero =>
        have hq : q = [] := by simpa using hz 0 (Nat.zero_le 0)
        have := ih 0 (Nat.zero_le _) (fun k _ => by simpa using hz (k + 1) (Nat.zero_le _))
        simp [hq, this]
      | succ n =>
        have := ih n (by simpa using hn) (fun k hk => by simpa using hz (k + 1) (by omega))
        simp [List.range_succ_eq_map, this, Function.comp_def]
  exact key s.acc s.nreg hl hu

/-! ## The raster-write arbiter -/

/-- One write lands when its index is in range. -/
theorem Arbiter.write_of_lt {n : Nat} {w : Nat × Color} (h : w.1 < n) (r : Arbiter) :
    Arbiter.write n r w = { r with raster := r.raster.write w.1 w.2, written := r.written + 1 } := by
  simp [Arbiter.write, h]

/-- One write is dropped when its index is out of range. -/
theorem Arbiter.write_of_le {n : Nat} {w : Nat × Color} (h : n ≤ w.1) (r : Arbiter) :
    Arbiter.write n r w = { r with dropped := r.dropped + 1 } := by
  simp [Arbiter.write, Nat.not_lt.mpr h]

/-- The counters of a sequence of writes. -/
theorem Arbiter.foldl_counts (n : Nat) (ws : List (Nat × Color)) (r : Arbiter) :
    (ws.foldl (Arbiter.write n) r).written = r.written + (ws.filter fun w => decide (w.1 < n)).length ∧
    (ws.foldl (Arbiter.write n) r).dropped = r.dropped + (ws.filter fun w => decide (n ≤ w.1)).length := by
  induction ws generalizing r with
  | nil => simp
  | cons w ws ih =>
    rw [List.foldl_cons]
    by_cases h : w.1 < n
    · rw [Arbiter.write_of_lt h]
      obtain ⟨h1, h2⟩ := ih { r with raster := r.raster.write w.1 w.2, written := r.written + 1 }
      rw [h1, h2]
      simp [h]; omega
    · have h' : n ≤ w.1 := Nat.not_lt.mp h
      rw [Arbiter.write_of_le h']
      obtain ⟨h1, h2⟩ := ih { r with dropped := r.dropped + 1 }
      rw [h1, h2]
      simp [h']; omega

/-- An invariant of the raster that every write in range keeps is kept by a sequence of writes. -/
theorem Arbiter.foldl_induct {n : Nat} (P : Memory → Prop) (hw : ∀ m i v, i < n → P m → P (Memory.write m i v))
    (ws : List (Nat × Color)) (r : Arbiter) (h : P r.raster) : P (ws.foldl (Arbiter.write n) r).raster := by
  induction ws generalizing r with
  | nil => exact h
  | cons w ws ih =>
    rw [List.foldl_cons]
    by_cases hlt : w.1 < n
    · rw [Arbiter.write_of_lt hlt]; exact ih _ (hw _ _ _ hlt h)
    · rw [Arbiter.write_of_le (Nat.not_lt.mp hlt)]; exact ih _ h

/-- RENDER's raster is canonical again. -/
theorem State.arbitrate_wf {s : State} (h : s.raster.wf = true) : s.arbitrate.raster.wf = true :=
  Arbiter.foldl_induct (fun m => m.wf = true) (fun _ i v _ hm => Memory.wf_write i v hm) _ _ h

/-- RENDER lists no cell outside the raster. -/
theorem State.arbitrate_below {s : State} (h : s.raster.below s.params.nCells = true) :
    s.arbitrate.raster.below s.params.nCells = true :=
  Arbiter.foldl_induct (fun m => m.below s.params.nCells = true) (fun _ _ v hi hm => Memory.below_write v hi hm) _ _ h

end Sys2Proof.Machine
end

