-- ==== Sys2Proof/Laws/Exec.lean ====
section
/-! SUPPORT. What a command can do, once: the inversion of `exec`, the shapes of `step`, and what RENDER leaves in the
raster. Later proofs cite these and unfold no meaning. -/

namespace Sys2Proof.Machine

/-! ## Totality -/

/-- Every command answers a next state. -/
theorem exec_total (i : Instr) (s : State) : ∃ t, exec i s = .next t := by
  cases i <;> exact ⟨_, rfl⟩

/-- While the block is halted every command but RDCSR is refused. -/
theorem exec_halted {i : Instr} {s : State} (h : s.statusFault = true) (hi : i.mnemonic ≠ .rdcsr) :
    exec i s = .next s.refuse := by
  cases i with
  | rdcsr => simp [Instr.mnemonic] at hi
  | _ =>
    simp [exec, execGetch, execSetch, execMapch, execPadd, execPsub, execPstep, execDinv, execEdges, execAddslot,
      execPush, execRender, execRdpix, h]

/-! ## Inversion -/

/-- Which command a running block answers with which change of state. -/
inductive Effect (s : State) : Instr → State → Prop where
  /-- A completed command that changes no state of the block. -/
  | pure {i : Instr} (d : BitVec 64) (hi : i.mnemonic ∉ [Mnemonic.addslot, .push, .render]) (hs : s.faultOf i = none) :
      Effect s i (s.respond d)
  /-- A fault. -/
  | fault {i : Instr} (f : Cause) (hs : s.faultOf i = some f) :
      Effect s i (s.raise f (encode i))
  /-- ADDSLOT. -/
  | addslot (a : Pos) (hn : s.nreg ≠ s.params.nSlots) :
      Effect s (.addslot a) ((s.register a).respond (BitVec.ofNat 64 s.nreg))
  /-- PUSH. -/
  | push (slot : BitVec 8) (a : Pos) (data : Color) (hs : slot.toNat < s.nreg) (hc : s.accCnt ≠ s.params.accDepth) :
      Effect s (.push slot a data)
        ((s.append slot.toNat ⟨a, data⟩).respond (BitVec.ofNat 64 (s.append slot.toNat ⟨a, data⟩).accCnt))
  /-- RENDER. -/
  | render : Effect s .render
      ({ s with raster := s.arbitrate.raster,
                statusOob := oobAfter s.statusOob s.arbitrate.dropped }.emptyAcc.respond s.arbitrate.data)

/-- Everything a command does on a running block. -/
theorem exec_running {i : Instr} {s t : State} (h : s.statusFault = false) (he : exec i s = .next t) : Effect s i t := by
  cases i with
  | getch ch data =>
    simp only [exec, execGetch, State.unlessHalted_running h, Host.Outcome.next.injEq] at he
    exact he ▸ .pure _ (by simp [Instr.mnemonic]) rfl
  | setch ch val data a =>
    simp only [exec, execSetch, State.unlessHalted_running h, Host.Outcome.next.injEq] at he
    exact he ▸ .pure _ (by simp [Instr.mnemonic]) rfl
  | mapch ch fn data a =>
    simp only [exec, execMapch, State.unlessHalted_running h, Host.Outcome.next.injEq, MapFn.ofCode?] at he
    by_cases h0 : fn = 0
    · rw [if_pos h0] at he
      exact he ▸ .pure _ (by simp [Instr.mnemonic]) (if_pos (.inl h0))
    · rw [if_neg h0] at he
      by_cases h1 : fn = 1
      · rw [if_pos h1] at he
        exact he ▸ .pure _ (by simp [Instr.mnemonic]) (if_pos (.inr h1))
      · rw [if_neg h1] at he
        exact he ▸ .fault _ (if_neg (by simp only [h0, h1, or_self, not_false_eq_true]))
  | padd a b =>
    simp only [exec, execPadd, State.unlessHalted_running h, Host.Outcome.next.injEq] at he
    exact he ▸ .pure _ (by simp [Instr.mnemonic]) rfl
  | psub a b =>
    simp only [exec, execPsub, State.unlessHalted_running h, Host.Outcome.next.injEq] at he
    exact he ▸ .pure _ (by simp [Instr.mnemonic]) rfl
  | pstep dir a =>
    simp only [exec, execPstep, State.unlessHalted_running h, Host.Outcome.next.injEq] at he
    exact he ▸ .pure _ (by simp [Instr.mnemonic]) rfl
  | dinv dir =>
    simp only [exec, execDinv, State.unlessHalted_running h, Host.Outcome.next.injEq] at he
    exact he ▸ .pure _ (by simp [Instr.mnemonic]) rfl
  | edges a width height =>
    simp only [exec, execEdges, State.unlessHalted_running h, Host.Outcome.next.injEq] at he
    split at he
    · next hz => exact he ▸ .fault _ (if_pos hz)
    · next hz => exact he ▸ .pure _ (by simp [Instr.mnemonic]) (if_neg hz)
  | addslot a =>
    simp only [exec, execAddslot, State.unlessHalted_running h, Host.Outcome.next.injEq] at he
    split at he
    · next hn => exact he ▸ .fault _ (if_pos hn)
    · next hn => exact he ▸ .addslot a hn
  | push slot a data =>
    simp only [exec, execPush, State.unlessHalted_running h, Host.Outcome.next.injEq] at he
    split at he
    · next hn => exact he ▸ .fault _ (if_pos hn)
    · next hn =>
      split at he
      · next hc => exact he ▸ .fault _ ((if_neg hn).trans (if_pos hc))
      · next hc => exact he ▸ .push slot a data (Nat.not_le.mp hn) hc
  | render =>
    simp only [exec, execRender, State.unlessHalted_running h, Host.Outcome.next.injEq] at he
    exact he ▸ .render
  | rdpix index =>
    simp only [exec, execRdpix, State.unlessHalted_running h, Host.Outcome.next.injEq] at he
    split at he
    · next hn => exact he ▸ .fault _ (if_pos hn)
    · next hn => exact he ▸ .pure _ (by simp [Instr.mnemonic]) (if_neg hn)
  | rdcsr csr =>
    simp only [exec, execRdcsr, Host.Outcome.next.injEq] at he
    exact he ▸ .pure _ (by simp [Instr.mnemonic]) rfl

/-- The fault of a command on a running block is the one `faultOf` names. -/
theorem exec_of_faultOf {i : Instr} {s : State} {f : Cause} (h : s.statusFault = false) (hf : s.faultOf i = some f) :
    exec i s = .next (s.raise f (encode i)) := by
  obtain ⟨t, ht⟩ := exec_total i s
  cases exec_running h ht with
  | pure d _ hs => simp [hs] at hf
  | fault g hs => rw [ht, Option.some.inj (hs.symm.trans hf)]
  | addslot a hn => simp [State.faultOf, hn] at hf
  | push slot a data hs hc => simp [State.faultOf, Nat.not_le.mpr hs, hc] at hf
  | render => simp [State.faultOf] at hf

/-- Everything a command does, halted or not. -/
theorem exec_cases {i : Instr} {s t : State} (he : exec i s = .next t) :
    (s.statusFault = true ∧ i.mnemonic ≠ .rdcsr ∧ t = s.refuse) ∨
    (s.statusFault = true ∧ ∃ n, i = .rdcsr n ∧ t = s.respond ((s.csr n).setWidth 64)) ∨
    (s.statusFault = false ∧ Effect s i t) := by
  cases h : s.statusFault with
  | false => exact .inr (.inr ⟨rfl, exec_running h he⟩)
  | true =>
    by_cases hi : i.mnemonic = .rdcsr
    · cases i with
      | rdcsr n =>
        simp only [exec, execRdcsr, Host.Outcome.next.injEq] at he
        exact .inr (.inl ⟨rfl, n, rfl, he.symm⟩)
      | _ => simp [Instr.mnemonic] at hi
    · rw [exec_halted h hi, Host.Outcome.next.injEq] at he
      exact .inl ⟨rfl, hi, he.symm⟩

/-! ## Steps -/

/-- A step on a word. -/
theorem step_word {s : State} {w : Command} {rest : List HostEvent} (h : s.input = .command w :: rest) :
    step s = acceptWord w { s with input := rest } := by
  simp [step, State.nextEvent, h, handleEvent]

/-- A step on a reset event. -/
theorem step_rst {s : State} {rest : List HostEvent} (h : s.input = .rst :: rest) :
    step s = .next ({ s with input := rest } : State).resetEvent := by
  simp [step, State.nextEvent, h, handleEvent]

/-- A step with no event. -/
theorem step_idle {s : State} (h : s.input = []) : step s = .next s := by
  simp [step, State.nextEvent, h]

/-- Everything a word can do. -/
theorem acceptWord_cases {w : Command} {s t : State} (h : acceptWord w s = .next t) :
    (∃ i, decode w = .command i ∧ exec i s = .next t) ∨
    (∃ why, decode w = .illegal why ∧ t = s.illegalWord w) := by
  unfold acceptWord at h
  cases hd : decode w with
  | command i => exact .inl ⟨i, rfl, by simpa [hd] using h⟩
  | illegal why => exact .inr ⟨why, rfl, by simpa [hd] using h.symm⟩

/-- Every step answers a next state. -/
theorem step_total (s : State) : ∃ t, step s = .next t := by
  cases h : s.input with
  | nil => exact ⟨_, step_idle h⟩
  | cons e rest =>
    cases e with
    | rst => exact ⟨_, step_rst h⟩
    | command w =>
      rw [step_word h]
      unfold acceptWord
      cases decode w with
      | command i => exact exec_total i _
      | illegal why => exact ⟨_, rfl⟩

/-! ## RENDER -/

theorem lastWrite_append (i : Nat) (xs ys : List (Nat × Color)) :
    lastWrite i (xs ++ ys) = (lastWrite i ys).or (lastWrite i xs) := by
  induction xs with
  | nil => simp [lastWrite]
  | cons w xs ih =>
    obtain ⟨a, v⟩ := w
    rw [List.cons_append]
    simp only [lastWrite, ih]
    cases lastWrite i ys <;> rfl

/-- After a sequence of writes a cell holds the last one to it that was in range, or what it held. -/
theorem Arbiter.foldl_read? (n i : Nat) (ws : List (Nat × Color)) (r : Arbiter) :
    (ws.foldl (Arbiter.write n) r).raster.read? i =
      (lastWrite i (ws.filter fun w => decide (w.1 < n))).or (r.raster.read? i) := by
  induction ws generalizing r with
  | nil => simp [lastWrite]
  | cons w ws ih =>
    obtain ⟨a, v⟩ := w
    rw [List.foldl_cons, ih]
    by_cases h : a < n
    · rw [Arbiter.write_of_lt h]
      simp only [List.filter_cons, h, decide_true, if_true, lastWrite, Memory.read?_write]
      cases lastWrite i (ws.filter fun w => decide (w.1 < n)) with
      | some u => rfl
      | none => by_cases ha : a = i <;> simp [ha]
    · rw [Arbiter.write_of_le (Nat.not_lt.mp h)]
      simp [h]

/-- What a cell reads after a RENDER. -/
theorem State.arbitrate_read? (s : State) (i : Nat) :
    s.arbitrate.raster.read? i =
      (lastWrite i (s.renderWrites.filter fun w => decide (w.1 < s.params.nCells))).or (s.raster.read? i) :=
  Arbiter.foldl_read? _ _ _ _

/-- RENDER's counters. -/
theorem State.arbitrate_counts (s : State) :
    s.arbitrate.written = (s.renderWrites.filter fun w => decide (w.1 < s.params.nCells)).length ∧
    s.arbitrate.dropped = (s.renderWrites.filter fun w => decide (s.params.nCells ≤ w.1)).length := by
  have := Arbiter.foldl_counts s.params.nCells s.renderWrites ⟨s.raster, 0, 0⟩
  simpa [State.arbitrate] using this

/-- The lists of the registered slots hold all writes of a RENDER. -/
theorem State.length_renderWrites (s : State) :
    s.renderWrites.length = ((List.range s.nreg).map fun k => (s.accAt k).length).sum := by
  simp [State.renderWrites, List.length_flatMap]

end Sys2Proof.Machine
end

