-- ==== Sys2Proof/Laws/Run.lean ====
section
/-! SUPPORT. Runs of several steps, and the three composition commands where they complete. -/

namespace Sys2Proof.Machine

/-- One step of a run. -/
theorem run_next {n : Nat} {s t : State} (h : step s = .next t) :
    Sys2Proof.core.run (n + 1) s = Sys2Proof.core.run n t := by
  have h' : Sys2Proof.core.step s = .next t := h
  simp only [Host.Core.run]
  rw [h']

/-- A step on the first of the commands the host presents, for a command the decoder reads back from its word. -/
theorem step_present {i : Instr} (h : decode (encode i) = .command i) (is : List Instr) (s : State) :
    step (s.present (i :: is)) = exec i (s.present is) := by
  rw [step_word (w := encode i) (rest := is.map (fun i => HostEvent.command (encode i)) ++ s.input) rfl, acceptWord, h]
  rfl

/-- A command is serviceable exactly when it names no fault. -/
theorem serviceable_iff (s : State) (i : Instr) : s.serviceable i = true ↔ s.faultOf i = none := by
  cases i with
  | push slot a data =>
    simp only [State.faultOf, State.serviceable, Bool.and_eq_true, decide_eq_true_eq, bne_iff_ne]
    split
    · simp; omega
    · split <;> simp_all
  | rdpix ix => simp only [State.faultOf, State.serviceable]; split <;> simp <;> omega
  | _ => simp only [State.faultOf, State.serviceable] <;> (try split) <;> simp_all <;> tauto

/-- ADDSLOT where a slot is free. -/
theorem exec_addslot_free {a : Pos} {s : State} (hr : s.running) (hn : s.nreg ≠ s.params.nSlots) :
    exec (.addslot a) s = .next ((s.register a).respond (BitVec.ofNat 64 s.nreg)) := by
  simp only [exec, execAddslot, State.unlessHalted_running hr, hn, if_false]

/-- PUSH where the slot is registered and the accumulator has room. -/
theorem exec_push_room {slot : BitVec 8} {a : Pos} {data : Color} {s : State} (hr : s.running)
    (hs : slot.toNat < s.nreg) (hn : s.accCnt ≠ s.params.accDepth) :
    exec (.push slot a data) s = .next
      ((s.append slot.toNat ⟨a, data⟩).respond (BitVec.ofNat 64 (s.append slot.toNat ⟨a, data⟩).accCnt)) := by
  simp only [exec, execPush, State.unlessHalted_running hr, Nat.not_le.mpr hs, hn, if_false]

/-- RENDER on a running block. -/
theorem exec_render_running {s : State} (hr : s.running) :
    exec .render s = .next (
      { s with raster := s.arbitrate.raster,
               statusOob := oobAfter s.statusOob s.arbitrate.dropped }.emptyAcc.respond s.arbitrate.data) := by
  simp only [exec, execRender, State.unlessHalted_running hr]

/-- The last write to a cell among the writes in range. -/
theorem lastWrite_inRange (i n : Nat) (ws : List (Nat × Color)) :
    lastWrite i (ws.filter fun w => decide (w.1 < n)) = if i < n then lastWrite i ws else none := by
  induction ws with
  | nil => simp [lastWrite]
  | cons w ws ih =>
    obtain ⟨a, v⟩ := w
    by_cases h : a < n
    · rw [List.filter_cons_of_pos (by simpa using h)]
      simp only [lastWrite, ih]
      by_cases hi : i < n
      · simp only [hi, if_true]
      · have : a ≠ i := by omega
        simp [hi, this]
    · rw [List.filter_cons_of_neg (by simpa using h), ih]
      split
      · have : a ≠ i := by omega
        simp only [lastWrite, this, if_false]
        cases lastWrite i ws <;> rfl
      · rfl

/-- Two accumulators of one length whose slots hold the same lists are equal. -/
theorem State.acc_ext {s t : State} (hl : s.acc.length = t.acc.length) (h : ∀ k, s.accAt k = t.accAt k) :
    s.acc = t.acc := by
  apply List.ext_getElem hl
  intro k h1 h2
  have := h k
  simpa [State.accAt, List.getElem?_eq_getElem h1, List.getElem?_eq_getElem h2] using this

/-- The invariant from checks on the lists alone. -/
theorem State.Inv.of_lists {s : State} (h1 : s.off.length = s.params.nSlots) (h2 : s.acc.length = s.params.nSlots)
    (h3 : s.nreg ≤ s.params.nSlots) (h4 : ∀ o ∈ s.off.drop s.nreg, o = ⟨0, 0⟩) (h5 : ∀ l ∈ s.acc.drop s.nreg, l = [])
    (h6 : s.accCnt ≤ s.params.accDepth) (h7 : s.raster.wf = true) (h8 : s.raster.below s.params.nCells = true)
    (h9 : s.statusFault = true ↔ s.cause ≠ 0) (h10 : s.cause.toNat ≤ 6) (h11 : s.statusFault = false → s.fcmd = 0) :
    s.Inv where
  offLength := h1
  accLength := h2
  nregBound := h3
  offUnregistered k hk := by
    unfold State.offAt
    cases h : s.off[k]? with
    | none => rfl
    | some o =>
      refine h4 o (List.mem_of_getElem? (i := k - s.nreg) ?_)
      rw [List.getElem?_drop, ← h]
      congr 1
      omega
  accUnregistered k hk := by
    unfold State.accAt
    cases h : s.acc[k]? with
    | none => rfl
    | some l =>
      refine h5 l (List.mem_of_getElem? (i := k - s.nreg) ?_)
      rw [List.getElem?_drop, ← h]
      congr 1
      omega
  accBound := h6
  rasterWf := h7
  rasterBelow := h8
  faultCause := h9
  causeCodes := h10
  fcmdClear := h11

end Sys2Proof.Machine
end

