-- ==== Sys2Proof/Laws/Frame.lean ====
section
/-! SUPPORT. The environment's frame loop: the commands presented, one command and its response, what a tick keeps. -/

namespace Sys2Proof.Machine

/-! ## Presenting commands -/

theorem State.present_append (xs ys : List Instr) (s : State) : s.present (xs ++ ys) = (s.present ys).present xs := by
  simp [State.present]

theorem State.present_nil (s : State) : s.present [] = s := rfl

/-- A run in two parts. -/
theorem run_append {m n : Nat} {s t : State} (h : Sys2Proof.core.run m s = .next t) :
    Sys2Proof.core.run (m + n) s = Sys2Proof.core.run n t := by
  induction m generalizing s with
  | zero =>
    rw [Nat.zero_add]
    have h' : s = t := Host.Outcome.next.inj h
    rw [h']
  | succ m ih =>
    obtain ⟨u, hu⟩ := step_total s
    rw [run_next hu] at h
    rw [show m + 1 + n = m + n + 1 by omega, run_next hu, ih h]

/-- One command and its response, where the step completes. -/
theorem State.issue_of_step {i : Instr} {s t : State} {r : Response} (h : step (s.present [i]) = .next t)
    (hr : t.output.getLast? = some r) : s.issue i = some (r, t) := by
  simp [State.issue, h, hr]

/-! ## Ticks -/

theorem isShuffle_iff (order : List Nat) (n : Nat) : isShuffle order n = true ↔ order.Perm (List.range n) :=
  List.isPerm_iff

/-- A tick of the Screen keeps every slot number and every offset. -/
theorem tickChildren_keeps {cs ks : List Child} {orders : TickDraws} (h : tickChildren cs orders = some ks) :
    ks.map (fun c => (c.offset, c.slot)) = cs.map fun c => (c.offset, c.slot) := by
  induction cs generalizing ks orders with
  | nil => cases h; rfl
  | cons c cs ih =>
    simp only [tickChildren] at h
    split at h
    · next hk hks => cases h; simp [ih hks]
    · cases h

theorem Scene.tick_keeps {sc next : Scene} {orders : TickDraws} (h : sc.tick orders = some next) :
    next.children.map (fun c => (c.offset, c.slot)) = sc.children.map fun c => (c.offset, c.slot) := by
  obtain ⟨ks, hk, rfl⟩ := Option.map_eq_some_iff.mp h
  exact tickChildren_keeps hk

/-- The ticks between two frames keep every slot number and every offset. -/
theorem Scene.ticks_keeps {sc next : Scene} {draws : FrameDraws} (h : sc.ticks draws = some next) :
    next.children.map (fun c => (c.offset, c.slot)) = sc.children.map fun c => (c.offset, c.slot) := by
  have key : ∀ (ns : List Nat) (sc next : Scene),
      ns.foldl (fun o k => o.bind (Scene.tick ((draws[k]?).getD []))) (some sc) = some next →
      next.children.map (fun c => (c.offset, c.slot)) = sc.children.map fun c => (c.offset, c.slot) := by
    intro ns
    induction ns with
    | nil => intro sc next h; cases h; rfl
    | cons n ns ih =>
      intro sc next h
      rw [List.foldl_cons, Option.bind_some] at h
      cases hm : sc.tick ((draws[n]?).getD []) with
      | none =>
        have stuck : ∀ l : List Nat,
            l.foldl (fun o k => o.bind (Scene.tick ((draws[k]?).getD []))) (none : Option Scene) = none := by
          intro l; induction l with
          | nil => rfl
          | cons _ l ih => exact ih
        rw [hm, stuck] at h; cases h
      | some mid => rw [hm] at h; exact (ih mid next h).trans (Scene.tick_keeps hm)
  exact key _ sc next h

/-- One frame of the frame loop, and the rest of it. -/
theorem Scene.shown_cons {d : FrameDraws} {ds : List FrameDraws} {sc : Scene} {scenes : List Scene}
    (h : Scene.shown (d :: ds) sc = some scenes) :
    ∃ next rest, sc.ticks d = some next ∧ Scene.shown ds next = some rest ∧ scenes = sc :: rest := by
  simp only [Scene.shown] at h
  split at h
  · cases h
  · next next hn =>
    obtain ⟨rest, hr, rfl⟩ := Option.map_eq_some_iff.mp h
    exact ⟨next, rest, hn, hr, rfl⟩

/-- The same slots in the same order stay registered at the same offsets. -/
theorem Scene.registered_of_keeps {a b : List Child} {s : State}
    (h : b.map (fun c => (c.offset, c.slot)) = a.map fun c => (c.offset, c.slot))
    (ha : ∀ k c, a[k]? = some c → c.slot.toNat = k ∧ c.offset = s.offAt k) :
    ∀ k c, b[k]? = some c → c.slot.toNat = k ∧ c.offset = s.offAt k := by
  intro k c hk
  have e := congrArg (fun l => l[k]?) h
  simp only [List.getElem?_map, hk, Option.map_some] at e
  cases hc : a[k]? with
  | none => rw [hc] at e; cases e
  | some c' =>
    rw [hc, Option.map_some, Option.some.injEq, Prod.mk.injEq] at e
    obtain ⟨h1, h2⟩ := ha k c' hc
    exact ⟨by rw [e.2]; exact h1, by rw [e.1]; exact h2⟩

/-- Many writes after one another: the last write to a cell is that of the later ones if there is one. -/
theorem lastWrite_getD_append (i : Nat) (xs ys : List (Nat × Color)) (c : Color) :
    (lastWrite i (xs ++ ys)).getD c = (lastWrite i ys).getD ((lastWrite i xs).getD c) := by
  rw [lastWrite_append]
  cases lastWrite i ys <;> rfl

end Sys2Proof.Machine
end

