-- ==== Sys2Proof/Laws/PerInstr.lean ====
section
/-! SUPPORT. One family of lemmas, one per constructor of Instr: the word of a well-formed command matches its row of the
opcode map. -/

namespace Sys2Proof.Laws.RowMatch

/-- R78: the word of a well-formed command matches its row. -/
def Statement (i : Instr) : Prop :=
  i.wellFormed = true → encode i &&& i.mnemonic.maskWord = i.mnemonic.matchWord

theorem of_fields {i : Instr} (h : i.fields.and i.mnemonic.maskFields = { op := i.mnemonic.opcode }) : Statement i := by
  intro _
  rw [Mnemonic.matches_iff, encode, Fields.unpack_pack]
  exact h

theorem getch (ch : Channel) (data : Color) : Statement (.getch ch data) :=
  of_fields (by simp [Instr.fields, Instr.mnemonic, Fields.and, Mnemonic.maskFields, Mnemonic.opcode])

theorem setch (ch : Channel) (val : ChannelValue) (data : Color) (a : Pos) : Statement (.setch ch val data a) :=
  of_fields (by simp [Instr.fields, Instr.mnemonic, Fields.and, Mnemonic.maskFields, Mnemonic.opcode])

theorem mapch (ch : Channel) (fn : BitVec 2) (data : Color) (a : Pos) : Statement (.mapch ch fn data a) := by
  intro hw
  have hf : fn &&& 2#2 = 0#2 := (fn_high_zero_iff fn).2 (by simpa [Instr.wellFormed] using hw)
  exact of_fields (i := .mapch ch fn data a)
    (by simp [Instr.fields, Instr.mnemonic, Fields.and, Mnemonic.maskFields, Mnemonic.opcode, hf]) hw

theorem padd (a b : Pos) : Statement (.padd a b) :=
  of_fields (by simp [Instr.fields, Instr.mnemonic, Fields.and, Mnemonic.maskFields, Mnemonic.opcode])

theorem psub (a b : Pos) : Statement (.psub a b) :=
  of_fields (by simp [Instr.fields, Instr.mnemonic, Fields.and, Mnemonic.maskFields, Mnemonic.opcode])

theorem pstep (dir : Direction) (a : Pos) : Statement (.pstep dir a) :=
  of_fields (by simp [Instr.fields, Instr.mnemonic, Fields.and, Mnemonic.maskFields, Mnemonic.opcode])

theorem dinv (dir : Direction) : Statement (.dinv dir) :=
  of_fields (by simp [Instr.fields, Instr.mnemonic, Fields.and, Mnemonic.maskFields, Mnemonic.opcode])

theorem edges (a : Pos) (width height : Coord) : Statement (.edges a width height) :=
  of_fields (by simp [Instr.fields, Instr.mnemonic, Fields.and, Mnemonic.maskFields, Mnemonic.opcode])

theorem addslot (a : Pos) : Statement (.addslot a) :=
  of_fields (by simp [Instr.fields, Instr.mnemonic, Fields.and, Mnemonic.maskFields, Mnemonic.opcode])

theorem push (slot : BitVec 8) (a : Pos) (data : Color) : Statement (.push slot a data) :=
  of_fields (by simp [Instr.fields, Instr.mnemonic, Fields.and, Mnemonic.maskFields, Mnemonic.opcode])

theorem render : Statement .render :=
  of_fields (by simp [Instr.fields, Instr.mnemonic, Fields.and, Mnemonic.maskFields, Mnemonic.opcode])

theorem rdpix (index : BitVec 32) : Statement (.rdpix index) :=
  of_fields (by simp [Instr.fields, Instr.mnemonic, Fields.and, Mnemonic.maskFields, Mnemonic.opcode])

theorem rdcsr (csr : BitVec 8) : Statement (.rdcsr csr) :=
  of_fields (by simp [Instr.fields, Instr.mnemonic, Fields.and, Mnemonic.maskFields, Mnemonic.opcode])

end Sys2Proof.Laws.RowMatch
end

