-- ==== Sys2Proof/Tests/Slice0.lean ====
section
/-! SUPPORT. Small tests of one step each, with the words and responses of spec/95_test_vectors.md, and for every statement
with hypotheses a concrete state and operands that meet them. -/

namespace Sys2Proof.Tests

open Sys2Proof.Machine Sys2Proof.Claims

/-! ## Helpers -/

/-- The state a result continues in. -/
def after : Result → Option State
  | .next t => some t
  | .fault _ => none
  | .refused _ => none

/-- The response a result ends with. -/
def answerOf (r : Result) : Option Response := (after r).bind fun t => t.output.getLast?

/-- What the block answers to one word in a state. -/
def ask (s : State) (w : Command) : Option Response := answerOf (step { s with input := [.command w] })

/-- The parameters of groups K1 to K3 and program P5: WIDTH 4, HEIGHT 3, N_SLOTS 2, ACC_DEPTH 2. -/
def tiny : Params := ⟨4, 3, 1, 1⟩

/-- The same with ACC_DEPTH 8 (program P4). -/
def tinyDeep : Params := ⟨4, 3, 1, 7⟩

/-- A block just reset, with WIDTH 8, HEIGHT 4, N_SLOTS 4, ACC_DEPTH 8. -/
def fresh : State := State.init small

/-- The block of program P2 after its command 4. -/
def loaded : State :=
  { fresh with nreg := 2, off := [⟨1, 1⟩, ⟨5, 2⟩, ⟨0, 0⟩, ⟨0, 0⟩],
               acc := [[⟨⟨0, 0⟩, 0x00FF0000⟩], [⟨⟨0, 0⟩, 0xFFFFFFFF⟩], [], []] }

/-- The block of group K2 after its command 3, with both slots registered: the table and the accumulator are full. -/
def full : State :=
  { State.init tiny with nreg := 2, acc := [[⟨⟨0, 0⟩, 1⟩, ⟨⟨1, 0⟩, 2⟩], []] }

/-- The block of group K4 after its command 2, with ACC_DEPTH 2: one slot of two registered, the accumulator full. -/
def oneFull : State :=
  { State.init tiny with nreg := 1, acc := [[⟨⟨0, 0⟩, 1⟩, ⟨⟨0, 0⟩, 1⟩], []] }

/-- The block of program P5 after its command 3. -/
def halted : State :=
  { State.init tiny with nreg := 1, acc := [[⟨⟨0, 0⟩, 0xAA⟩], []], statusFault := true, cause := 2,
                         fcmd := 0x0000000000000000000000BB00000131 }

/-- The block of program P4 after its command 8. -/
def overlapping : State :=
  { State.init tinyDeep with
      nreg := 2, off := [⟨0, 0⟩, ⟨1, 0⟩],
      acc := [[⟨⟨1, 0⟩, 0x22222222⟩, ⟨⟨1, 0⟩, 0x33333333⟩, ⟨⟨4, 0⟩, 0x44444444⟩, ⟨⟨0xFFFF, 0⟩, 0x66666666⟩],
              [⟨⟨0, 0⟩, 0x11111111⟩, ⟨⟨3, 2⟩, 0x55555555⟩]] }

/-! ## WellFormed -/

/-- R77: the codes 2 and 3 are refused, 0 and 1 are not. -/
theorem test_wellFormed_mapch_fn :
    (Instr.mapch .red 2 0 ⟨0, 0⟩).wellFormed = false ∧ (Instr.mapch .red 3 0 ⟨0, 0⟩).wellFormed = false ∧
    (Instr.mapch .red 0 0 ⟨0, 0⟩).wellFormed = true ∧ (Instr.mapch .red 1 0 ⟨0, 0⟩).wellFormed = true := by decide

/-! ## Decode: the words of spec/95_test_vectors.md and of the rules' examples, written out -/

theorem test_decode_getch :
    decode 0x00000000000000001234567800020001 = .command (.getch .green 0x12345678) := by decide
theorem test_decode_setch :
    decode 0x0000000000090007123456789A030002 = .command (.setch .blue 0x9A 0x12345678 ⟨7, 9⟩) := by decide
theorem test_decode_mapch :
    decode 0x000000000001FFFF0000FF0000120003 = .command (.mapch .green 1 0x0000FF00 ⟨0xFFFF, 1⟩) := by decide
theorem test_decode_padd :
    decode 0x0014000A000400030000000000000010 = .command (.padd ⟨3, 4⟩ ⟨10, 20⟩) := by decide
theorem test_decode_psub :
    decode 0x000400030014000A0000000000000011 = .command (.psub ⟨10, 20⟩ ⟨3, 4⟩) := by decide
theorem test_decode_pstep :
    decode 0x00000000FFFF00030000000000040012 = .command (.pstep .down ⟨3, 0xFFFF⟩) := by decide
theorem test_decode_dinv :
    decode 0x000000000000000000000000000C0013 = .command (.dinv .right) := by decide
theorem test_decode_edges :
    decode 0x000A0001000300000000000000000020 = .command (.edges ⟨0, 3⟩ 1 10) := by decide
theorem test_decode_addslot :
    decode 0x00000000000200050000000000000030 = .command (.addslot ⟨5, 2⟩) := by decide
theorem test_decode_push :
    decode 0x000000000003000200FF000000000131 = .command (.push 1 ⟨2, 3⟩ 0x00FF0000) := by decide
theorem test_decode_render :
    decode 0x00000000000000000000000000000032 = .command .render := by decide
theorem test_decode_rdpix :
    decode 0x00000000000000000000001500000033 = .command (.rdpix 21) := by decide
theorem test_decode_rdcsr :
    decode 0x00000000000000000000000000000C34 = .command (.rdcsr 0x0C) := by decide

/-- Section 6, X1 to X12: none of these words is a command. -/
theorem test_illegal_words :
    [0x00000000000000000000000000000000#128, 0x00000000000000000000000000000035, 0x000000000000000000000000000000FF,
     0x00000000000000000000000000000132, 0x00000000000000000000000000010134, 0x00010001000100010000000100000010,
     0x00000000000000000000000000440013, 0x00000000000000000000000000300003, 0x00000000000000000000000000210003,
     0x00000001000000000000000000000031, 0x00000000000000000000000501010001,
     0x00000000000000010000000500010001].all
      (fun w => match decode w with | .command _ => false | .illegal _ => true) = true := by decide

/-- The host's view: the same words by the table's numbering. -/
theorem test_decodeTableWord :
    decodeTableWord 128 0x131 = some (.push 1 ⟨0, 0⟩ 0) ∧ decodeTableWord 128 0x132 = none ∧
    decodeTableWord 128 (2 ^ 128 + 0x32) = some .render ∧ decodeTableWord 136 0x32 = none := by decide

/-! ## One step of each command -/

/-- C1, C2. -/
theorem test_getch : ask fresh 0x00000000000000001234567800000001 = some 0x000000000000000012 ∧
    ask fresh 0x00000000000000001234567800010001 = some 0x000000000000000034 := by decide
/-- C6: clearing a slice. -/
theorem test_setch_clear : ask fresh 0x0000000000000000FFFFFFFF00020002 = some 0x0000000000FFFF00FF := by decide
/-- C7: the position is echoed. -/
theorem test_setch_position : ask fresh 0x0000000000090007123456789A030002 = some 0x00000900071234569A := by decide
/-- C9: DEC saturates at 0 and borrows from no other channel. -/
theorem test_mapch_dec : ask fresh 0x00000000000000001234560000030003 = some 0x000000000012345600 := by decide
/-- C12: INC saturates at 255 and carries into no other channel. -/
theorem test_mapch_inc : ask fresh 0x000000000001FFFF0000FF0000120003 = some 0x000001FFFF0000FF00 := by decide
/-- P2: one axis wraps. -/
theorem test_padd_one : ask fresh 0x000000010000FFFF0000000000000010 = some 0x000000000000000001 := by decide
/-- P3: both axes wrap. -/
theorem test_padd_both : ask fresh 0xFFFF8000FFFF80000000000000000010 = some 0x00FFFE000000000003 := by decide
/-- P4: A minus B, not B minus A. -/
theorem test_psub : ask fresh 0x000400030014000A0000000000000011 = some 0x000010000700000000 := by decide
/-- P6: the borrow of y. -/
theorem test_psub_wrap : ask fresh 0x00010000000000000000000000000011 = some 0x00FFFF000000000002 := by decide
/-- P9: Up at y = 0. -/
theorem test_pstep_up : ask fresh 0x00000000000000030000000000000012 = some 0x00FFFF000300000002 := by decide
/-- P12: Right at x = 0xFFFF. -/
theorem test_pstep_right : ask fresh 0x000000000003FFFF00000000000C0012 = some 0x000003000000000001 := by decide
/-- P14, P15. -/
theorem test_dinv : ask fresh 0x00000000000000000000000000040013 = some 0x000000000000000000 ∧
    ask fresh 0x00000000000000000000000000080013 = some 0x000000000000000003 := by decide
/-- B8: on a side of 1 Right wins. -/
theorem test_edges_right_wins : ask fresh 0x000A0001000300000000000000000020 = some 0x000000000000000007 := by decide
/-- B12: a zero side faults. -/
theorem test_edges_zero : ask fresh 0x000A0000000000000000000000000020 = some 0x060000000000000000 := by decide
/-- P2, command 2: the second slot. -/
theorem test_addslot : ask { fresh with nreg := 1 } 0x00000000000200050000000000000030 = some 1 ∧
    (after (exec (.addslot ⟨5, 2⟩) { fresh with nreg := 1 })).map (·.offAt 1) = some ⟨5, 2⟩ := by decide
/-- K3.3: the table is full. -/
theorem test_addslot_full : ask full 0x00000000000900090000000000000030 = some 0x030000000000000000 := by decide
/-- A pixel goes to the end of its own slot's list. -/
theorem test_push : (after (exec (.push 0 ⟨2, 3⟩ 7) loaded)).map (·.accAt 0) =
    some [⟨⟨0, 0⟩, 0x00FF0000⟩, ⟨⟨2, 3⟩, 7⟩] ∧ ask loaded 0x00000000000300020000000700000031 = some 3 := by decide
/-- K4.3: BadSlot, not AccOverflow. -/
theorem test_push_priority : ask oneFull 0x00000000000000000000000200000131 = some 0x020000000000000000 := by decide
/-- P4, command 9: four written, two dropped, and slot 1 writes last although it was pushed first. -/
theorem test_render_order :
    ask overlapping 0x00000000000000000000000000000032 = some 0x000000000200000004 ∧
    (after (exec .render overlapping)).map (·.raster) = some [(1, 0x11111111), (4, 0x44444444)] := by decide
/-- P4, command 9: OOB is set and every list is emptied. -/
theorem test_render_oob :
    (after (exec .render overlapping)).map (fun t => (t.statusOob, t.acc)) = some (true, [[], []]) := by decide
/-- P2, command 7. -/
theorem test_rdpix : ask { loaded with raster := [(9, 0x00FF0000), (21, 0xFFFFFFFF)] }
    0x00000000000000000000000900000033 = some 0x0000000000FF0000 := by decide
/-- K1.2: the first index past the raster. -/
theorem test_rdpix_bad : ask (State.init tiny) 0x00000000000000000000000C00000033 = some 0x050000000000000000 := by decide
/-- P5, commands 7 and 9: served while halted. -/
theorem test_rdcsr_halted : ask halted 0x00000000000000000000000000000134 = some 1 ∧
    ask halted 0x00000000000000000000000000000934 = some 0x131 := by decide
/-- K5.2, K5.3, and the offset register of R158. -/
theorem test_rdcsr : ask fresh 0x00000000000000000000000000000034 = some 0x46424301 ∧
    ask fresh 0x00000000000000000000000000005534 = some 0 ∧
    ask loaded 0x00000000000000000000000000008134 = some 0x00020005 := by decide

/-! ## Faults, the halted condition and reset -/

/-- X9, then the latch. -/
theorem test_illegal_latches :
    (after (step { fresh with input := [.command 0x00000000000000000000000000210003] })).map
      (fun t => (t.statusFault, t.cause, t.fcmd)) = some (true, 1, 0x00000000000000000000000000210003) := by decide
/-- X13, P5.4, P5.6: refused with 0xFF, and the first fault stays latched. -/
theorem test_halted_refuses : ask halted 0x00000000000000000000000000010234 = some 0xFF0000000000000000 ∧
    ask halted 0x00000000000000000000000000000032 = some 0xFF0000000000000000 ∧
    (after (step { halted with input := [.command 0] })).map (·.cause) = some 2 := by decide
/-- R250: a reset event. -/
theorem test_reset_event :
    (after (step { halted with input := [.rst] })).map
      (fun t => ((t.statusFault, t.cause, t.nreg), (t.acc, t.resets))) = some ((false, 0, 0), ([[], []], 1)) := by decide
/-- The next step runs the word withFetchWord places, also right after reset. -/
theorem test_withFetchWord : answerOf (step (State.reset.withFetchWord 128 0x34)) = some 0x46424301 := by decide

/-! ## The environment's pixel sources -/

/-- R186. -/
theorem test_blinker :
    Component.tick [] (newBlinker true) = some (.blinker false ⟨0, 0⟩) ∧
    Component.render (newBlinker true) = [⟨⟨0, 0⟩, 0xFFFFFFFF⟩] ∧
    Component.render (newBlinker false ⟨1, 2⟩) = [⟨⟨1, 2⟩, 0⟩] := by decide
/-- P6: ticks 1 and 2. -/
theorem test_breather :
    Component.tick [] (newBreather ⟨⟨2, 2⟩, 0xFF00FE00⟩ .green .up) =
      some (.breather ⟨⟨2, 2⟩, 0xFF00FF00⟩ .green .down) ∧
    Component.tick [] (.breather ⟨⟨2, 2⟩, 0xFF00FF00⟩ .green .down) =
      some (.breather ⟨⟨2, 2⟩, 0xFF00FE00⟩ .green .down) := by decide
/-- S9: straight down; and a grain on the floor next to a grain moves away from it. -/
theorem test_sand :
    moveGrains false 3 3 [⟨1, 0⟩] [0] = [⟨1, 1⟩] ∧ moveGrains false 3 1 [⟨1, 0⟩, ⟨2, 0⟩] [0] = [⟨0, 0⟩] := by decide
/-- 90_conflicts.md C3: without the claim check two grains choose one cell; with it the second one does not. -/
theorem test_sand_claim :
    moveGrains false 3 1 [⟨0, 0⟩, ⟨2, 0⟩] [0, 1] = [⟨1, 0⟩, ⟨1, 0⟩] ∧
    moveGrains true 3 1 [⟨0, 0⟩, ⟨2, 0⟩] [1, 0] = [⟨1, 0⟩, ⟨0, 0⟩] := by decide
/-- R181: the two constructions of a FallingSand; R191: it ticks with a shuffle of all its grains and no other order. -/
theorem test_sand_shuffle :
    newFallingSandCount 2 (fun k => ⟨BitVec.ofNat 16 k, 0⟩) 3 3 7 = newFallingSand [⟨0, 0⟩, ⟨1, 0⟩] 3 3 7 ∧
    (newFallingSand [⟨0, 0⟩, ⟨1, 0⟩] 3 3 7).tick [1, 0] = some (newFallingSand [⟨1, 1⟩, ⟨0, 1⟩] 3 3 7) ∧
    (newFallingSand [⟨0, 0⟩, ⟨1, 0⟩] 3 3 7).tick [] = none ∧
    Scene.ticks [[]] ⟨[⟨newFallingSand [⟨0, 0⟩] 3 3 7, ⟨0, 0⟩, 0⟩], 1⟩ = none := by decide
/-- S11; and R227: a tick on an empty trail is fatal. -/
theorem test_laser :
    Component.tick [] (newLaser 10 10 7) = some (.laser 10 10 [⟨0, 0⟩, ⟨1, 1⟩] .right .down 7) ∧
    Component.tick [] (.laser 10 10 [] .left .up 7) = none := by decide
/-- R181 to R184: the commands and the tick of a scene of one Blinker at offset (5,2). -/
theorem test_frame :
    Scene.registerCommands ⟨[⟨newBlinker true, ⟨5, 2⟩, 0⟩], 1⟩ = [.addslot ⟨5, 2⟩] ∧
    Scene.frameCommands 2 ⟨[⟨newBlinker true, ⟨5, 2⟩, 0⟩], 1⟩ =
      [.push 0 ⟨0, 0⟩ 0xFFFFFFFF, .render, .rdpix 0, .rdpix 1] ∧
    Scene.ticks [[[]]] ⟨[⟨newBlinker true, ⟨5, 2⟩, 0⟩], 1⟩ = some ⟨[⟨newBlinker false, ⟨5, 2⟩, 0⟩], 1⟩ := by decide

/-- R181: two components get the slot numbers 0 and 1, and a third finds the table full. -/
theorem test_scene_new :
    (Scene.new [(newBlinker true, ⟨1, 1⟩), (newBlinker true, ⟨5, 2⟩)] 1 (State.init tiny)).map Prod.fst =
      some ⟨[⟨newBlinker true, ⟨1, 1⟩, 0⟩, ⟨newBlinker true, ⟨5, 2⟩, 1⟩], 1⟩ ∧
    Scene.new [(newBlinker true, ⟨0, 0⟩), (newBlinker true, ⟨0, 0⟩), (newBlinker true, ⟨0, 0⟩)] 1 (State.init tiny) =
      none := by decide
/-- R183: two frames of a Blinker: the second frame pushes what one tick left. -/
theorem test_loop : Scene.loopCommands 1 [[[]], [[]]] ⟨[⟨newBlinker true, ⟨5, 2⟩, 0⟩], 1⟩ =
    some [.push 0 ⟨0, 0⟩ 0xFFFFFFFF, .render, .rdpix 0, .push 0 ⟨0, 0⟩ 0, .render, .rdpix 0] := by decide

/-- R84. -/
theorem test_pseudo_commands : encode rdstatus = 0x134 ∧ rdpixXY small 1 1 = some (.rdpix 9) ∧
    rdpixXY small 8 0 = none ∧ rdpixXY small 0 4 = none := by decide

/-! ## The invariant of the states used below -/

theorem fresh_inv : fresh.Inv := State.Inv.of_lists rfl rfl (by decide) (by decide) (by decide) (by decide) rfl rfl
  (by decide) (by decide) (by decide)
theorem loaded_inv : loaded.Inv := State.Inv.of_lists rfl rfl (by decide) (by decide) (by decide) (by decide) rfl rfl
  (by decide) (by decide) (by decide)
theorem full_inv : full.Inv := State.Inv.of_lists rfl rfl (by decide) (by decide) (by decide) (by decide) rfl rfl
  (by decide) (by decide) (by decide)
theorem overlapping_inv : overlapping.Inv := State.Inv.of_lists rfl rfl (by decide) (by decide) (by decide) (by decide)
  rfl rfl (by decide) (by decide) (by decide)
theorem halted_inv : halted.Inv := State.Inv.of_lists rfl rfl (by decide) (by decide) (by decide) (by decide) rfl rfl
  (by decide) (by decide) (by decide)

/-! ## Witnesses: the hypotheses of each statement, met together -/

theorem witness_DecodeInvertsEncode : (Instr.mapch .blue 1 0xFFFFFFFF ⟨0xFFFF, 0xFFFF⟩).wellFormed = true ∧
    (Instr.mapch .alpha 0 0 ⟨0, 0⟩).wellFormed = true ∧ Instr.render.wellFormed = true := by decide
theorem witness_EncodeInvertsDecode : decode 0x00000000000000000000000000008134 = .command (.rdcsr 0x81) ∧
    (Instr.rdcsr 0x81).wellFormed = true ∧ encode (.rdcsr 0x81) = 0x00000000000000000000000000008134 := by decide
theorem witness_OpcodeMapDecidesEveryWord :
    (Mnemonic.mapch, (0x03 : BitVec 8), (0x00000000000000000000000000000003 : Command),
      (0xFFFFFFFF0000000000000000FFECFFFF : Command)) ∈ opcodeMap ∧
    (0x000000000001FFFF0000FF0000120003#128 &&& 0xFFFFFFFF0000000000000000FFECFFFF = 0x03) := by decide
/-- MAPCH words with the function codes 0, 1, 2 and 3: the opcode is the row's in all of them. -/
theorem witness_UnusedFieldsMustBeZero :
    [0x000003#128, 0x100003, 0x200003, 0x300003].map (fun w => (w.extractLsb' 0 8, (Fields.unpack w).fn)) =
      [(Mnemonic.mapch.opcode, 0), (Mnemonic.mapch.opcode, 1), (Mnemonic.mapch.opcode, 2), (Mnemonic.mapch.opcode, 3)] := by
  decide
theorem witness_IllegalWordsFault :
    (∀ r ∈ opcodeMap, (0x35#128).extractLsb' 0 8 ≠ r.2.1) ∧ (∀ r ∈ opcodeMap, (0x35#128) &&& r.2.2.2 ≠ r.2.2.1) ∧
    (0x132#128).extractLsb' 0 8 = Mnemonic.render.opcode ∧ (Fields.unpack 0x132).slot ≠ 0 ∧
    (Fields.unpack 0x440013).rsv ≠ 0 ∧ (0x200003#128).extractLsb' 0 8 = 0x03 ∧ (0x200003#128).getLsbD 21 = true ∧
    fresh.running ∧ ({ fresh with input := [.command 0] } : State).input = .command 0 :: [] ∧
    decode 0 = .illegal .unknownOpcode := by decide
theorem witness_StepRunsTheDecodedCommand :
    ({ fresh with input := [.command 0x32] } : State).input = .command 0x32 :: [] ∧ decode 0x32 = .command .render := by
  decide
/-- One word for each outcome: completed, operand fault, illegal, served while halted, refused while halted. -/
theorem witness_EveryWordHasOneOutcome :
    (fresh.running ∧ decode 0x32 = .command .render) ∧ (fresh.running ∧ decode 0x31 = .command (.push 0 ⟨0, 0⟩ 0)) ∧
    (fresh.running ∧ decode 0 = .illegal .unknownOpcode) ∧ (¬ halted.running ∧ decode 0x134 = .command (.rdcsr 1)) ∧
    (¬ halted.running ∧ decode 0x32 = .command .render) := by decide
theorem witness_OneResponsePerCommand :
    ({ fresh with input := [.command 0, .command 0x34, .rst] } : State).input =
      [0#128, 0x34].map .command ++ [HostEvent.rst] := by decide
theorem witness_IdleBlockKeepsItsState : fresh.input = [] := by decide
theorem witness_FaultCausesAndConditions :
    (fresh.running ∧ decode 0 = .illegal .unknownOpcode) ∧ (oneFull.running ∧ oneFull.nreg ≤ (1#8).toNat) ∧
    (full.running ∧ full.nreg = full.params.nSlots) ∧
    (full.running ∧ (1#8).toNat < full.nreg ∧ full.accCnt = full.params.accDepth) ∧
    (full.running ∧ full.params.nCells ≤ (12#32).toNat) ∧ (full.running ∧ (0#16 = 0 ∨ 10#16 = 0)) ∧
    (full.running ∧ full.serviceable (.rdpix 11) = true) ∧ (¬ halted.running ∧ decode 0x32 = .command .render) := by
  decide
theorem witness_FaultEntryChangesNothingElse :
    ∃ t, step { full with input := [.command 0x0C00000033] } = .next t ∧ ¬ t.running ∧ full.running :=
  ⟨_, rfl, by decide, by decide⟩
theorem witness_FaultPriority :
    ¬ halted.running ∧ (fresh.running ∧ decode 0x2200000031 = .command (.push 0 ⟨0, 0⟩ 0x22)) ∧
    (oneFull.running ∧ oneFull.nreg ≤ (1#8).toNat ∧ oneFull.accCnt = oneFull.params.accDepth) := by decide
theorem witness_HaltedBlockServesOnlyRdcsr :
    ¬ halted.running ∧ decode 0x234 = .command (.rdcsr 2) ∧ decode 0x10234 = .illegal (.mustBeZero .rdcsr) ∧
    halted.input.head? ≠ some .rst ∧ ({ halted with input := [.rst] } : State).input.head? = some .rst ∧
    (∃ t, step halted = .next t) ∧ ∃ t, step { halted with input := [.rst] } = .next t :=
  ⟨by decide, by decide, by decide, by decide, by decide, ⟨_, rfl⟩, ⟨_, rfl⟩⟩
theorem witness_HaltedBlockStaysFrozen :
    ¬ halted.running ∧ ({ halted with input := [.command 0x32, .command 0x234] } : State).input =
      [0x32#128, 0x234].map .command ++ [] := by decide
theorem witness_ServiceableCommandsNeverFault : loaded.running ∧ (∃ t, exec (.push 1 ⟨0, 0⟩ 0) loaded = .next t) ∧
    loaded.serviceable (.push 1 ⟨0, 0⟩ 0) = true ∧ loaded.serviceable (.push 2 ⟨0, 0⟩ 0) = false :=
  ⟨by decide, ⟨_, rfl⟩, by decide, by decide⟩
theorem witness_ChannelAlgebraLaws : Channel.red ≠ Channel.blue := by decide

/-- The hypotheses of `wordsOf`, for every row: a word of the row whose unused fields are zero, and one whose are not. -/
theorem witness_wordsOf_channel :
    unusedZero (Fields.unpack 0x1234567800030001) .getch ∧ ¬ unusedZero (Fields.unpack 0x100002) .setch ∧
    unusedZero (Fields.unpack 0x0000000000090007123456789A030002) .setch ∧
    unusedZero (Fields.unpack 0x000000000001FFFF0000FF0000120003) .mapch ∧
    ¬ unusedZero (Fields.unpack 0x1000003) .mapch ∧ ¬ unusedZero (Fields.unpack 0x101) .getch := by
  simp only [unusedZero]; decide
theorem witness_wordsOf_position :
    unusedZero (Fields.unpack 0xFFFF8000FFFF80000000000000000010) .padd ∧
    ¬ unusedZero (Fields.unpack 0x100000010) .padd ∧
    unusedZero (Fields.unpack 0x000400030014000A0000000000000011) .psub ∧ ¬ unusedZero (Fields.unpack 0x111) .psub := by
  simp only [unusedZero]; decide
theorem witness_wordsOf_direction :
    unusedZero (Fields.unpack 0x00000000FFFF00030000000000040012) .pstep ∧
    ¬ unusedZero (Fields.unpack 0x10012) .pstep ∧ unusedZero (Fields.unpack 0xC0013) .dinv ∧
    ¬ unusedZero (Fields.unpack 0x440013) .dinv := by
  simp only [unusedZero]; decide
theorem witness_wordsOf_edges :
    unusedZero (Fields.unpack 0x000A0001000300000000000000000020) .edges ∧
    ¬ unusedZero (Fields.unpack 0x40020) .edges := by
  simp only [unusedZero]; decide
theorem witness_wordsOf_compose :
    unusedZero (Fields.unpack 0x00000000FFFFFFFF0000000000000030) .addslot ∧
    ¬ unusedZero (Fields.unpack 0x130) .addslot ∧
    unusedZero (Fields.unpack 0x000000000003000200FF00000000FF31) .push ∧
    ¬ unusedZero (Fields.unpack 0x00000001000000000000000000000031) .push := by
  simp only [unusedZero]; decide
theorem witness_wordsOf_render : unusedZero (Fields.unpack 0x32) .render ∧
    ¬ unusedZero (Fields.unpack 0x132) .render := by
  simp only [unusedZero]; decide
theorem witness_wordsOf_read :
    unusedZero (Fields.unpack 0xFFFFFFFF00000033) .rdpix ∧
    ¬ unusedZero (Fields.unpack 0x133) .rdpix ∧ unusedZero (Fields.unpack 0xFF34) .rdcsr ∧
    ¬ unusedZero (Fields.unpack 0x10134) .rdcsr := by
  simp only [unusedZero]; decide

theorem witness_GetchReturnsOneChannel : fresh.running := by decide
theorem witness_SetchReplacesOneChannel : fresh.running ∧ Channel.alpha ≠ Channel.red := by decide
/-- DEC at 0 and 1 and INC at 254 and 255. -/
theorem witness_MapchStepsOneChannelSaturating : fresh.running ∧ (0#2 = 0 ∨ 0#2 = 1) ∧ (1#2 = 0 ∨ 1#2 = 1) ∧
    [slice 0x00000000 .red, slice 0x00010000 .red, slice 0x00FE0000 .red, slice 0x00FF0000 .red] = [0, 1, 254, 255] := by
  decide
theorem witness_ReservedMapCodesFault :
    fresh.running ∧ ((2#2 : BitVec 2) ≠ 0 ∧ (2#2 : BitVec 2) ≠ 1) ∧ (3#2 : BitVec 2) ≠ 0 ∧ (3#2 : BitVec 2) ≠ 1 := by decide
theorem witness_PaddAddsPositions : fresh.running := by decide
theorem witness_PsubSubtractsPositions : fresh.running := by decide
theorem witness_PstepMovesOneStep : fresh.running := by decide
theorem witness_DinvInvertsDirection : fresh.running := by decide
/-- The sides 1 and 0xFFFF, and the zero sides. -/
theorem witness_EdgesReportTouchedEdges : fresh.running ∧ ((1#16 : Coord) ≠ 0 ∧ (0xFFFF#16 : Coord) ≠ 0) ∧
    ((0#16 : Coord) = 0 ∨ (1#16 : Coord) = 0) ∧ ((1#16 : Coord) = 0 ∨ (0#16 : Coord) = 0) := by decide
/-- Outside, the side of 1, the corners, and the largest rectangle. -/
theorem witness_EdgesCornerCases : fresh.running ∧ (10#16 : Coord) ≠ 0 ∧ (10#16).toNat ≤ (10#16).toNat ∧
    (10#16).toNat ≤ (0xFFFF#16).toNat ∧ (9#16).toNat + 1 = (10#16).toNat ∧ (0xFFFE#16).toNat + 1 = (0xFFFF#16).toNat ∧
    (after (exec (.edges ⟨0, 9⟩ 1 10) fresh)).map (·.output) = some [0x57] := by decide
/-- The last free slot, and the full table. -/
theorem witness_AddslotRegistersNextSlot :
    (loaded.Inv ∧ loaded.running ∧ loaded.nreg ≠ loaded.params.nSlots) ∧
    (oneFull.running ∧ oneFull.nreg + 1 = oneFull.params.nSlots) ∧ full.running ∧ full.nreg = full.params.nSlots :=
  ⟨⟨loaded_inv, by decide⟩, by decide⟩
/-- The last registered slot and the first unregistered one, an accumulator with room and a full one. -/
theorem witness_PushAppendsOnePixel :
    (loaded.Inv ∧ loaded.running ∧ (1#8).toNat < loaded.nreg ∧ loaded.accCnt ≠ loaded.params.accDepth) ∧
    (loaded.running ∧ loaded.nreg ≤ (2#8).toNat) ∧
    (full.running ∧ (1#8).toNat < full.nreg ∧ full.accCnt = full.params.accDepth) :=
  ⟨⟨loaded_inv, by decide⟩, by decide⟩
theorem witness_RenderWritesInOrderAndEmpties : overlapping.Inv ∧ overlapping.running ∧
    inRange overlapping = [(1, 0x22222222), (1, 0x33333333), (4, 0x44444444), (1, 0x11111111)] ∧
    outOfRange overlapping = [(65535, 0x66666666), (12, 0x55555555)] := ⟨overlapping_inv, by decide⟩
theorem witness_RenderTranslationIsExact :
    (addPos ⟨0xFFFE, 0⟩ ⟨1, 0xFFFF⟩).wrapX = false ∧ (addPos ⟨0xFFFE, 0⟩ ⟨1, 0xFFFF⟩).wrapY = false := by decide
/-- One slot at (0,0) that holds the pixel (WIDTH, 0), which lands in row 1 (R52). -/
theorem witness_IndexIsRowMajorWithoutClipping :
    ({ fresh with nreg := 1, acc := [[⟨⟨8, 0⟩, 5⟩], [], [], []] } : State).Inv ∧
    fresh.params.width.toNat ≤ (8#16).toNat + (fresh.offAt 0).x.toNat ∧
    cellIndex fresh.params (fresh.offAt 0) ⟨8, 0⟩ < fresh.params.nCells ∧ (7#16).toNat < small.width.toNat :=
  ⟨State.Inv.of_lists rfl rfl (by decide) (by decide) (by decide) (by decide) rfl rfl (by decide) (by decide) (by decide),
    by decide⟩
/-- The last cell and the first index past it. -/
theorem witness_RdpixReadsOneCell :
    fresh.running ∧ (31#32).toNat < fresh.params.width.toNat * fresh.params.height.toNat ∧
    fresh.raster.read? (31#32).toNat = none ∧
    fresh.params.width.toNat * fresh.params.height.toNat ≤ (32#32).toNat := by decide
/-- The ends of the ranges of CSR numbers for N_SLOTS = 4. -/
theorem witness_RdcsrReadsTheCsrMap : loaded.Inv ∧ (3 < loaded.params.nSlots ∧ (0x83#8).toNat = 0x80 + 3) ∧
    (0 < loaded.params.nSlots ∧ (0x80#8).toNat = 0x80 + 0) ∧
    (0x0D ≤ (0x0D#8).toNat ∧ (0x0D#8).toNat < 0x80) ∧ (0x0D ≤ (0x7F#8).toNat ∧ (0x7F#8).toNat < 0x80) ∧
    0x80 + loaded.params.nSlots ≤ (0x84#8).toNat ∧ 0x80 + loaded.params.nSlots ≤ (0xFF#8).toNat :=
  ⟨loaded_inv, by decide⟩
theorem witness_PureCommandsDependOnTheirWordOnly :
    (Instr.edges ⟨0, 0⟩ 0 1).mnemonic ∈ [Mnemonic.getch, .setch, .mapch, .padd, .psub, .pstep, .dinv, .edges] ∧
    fresh.running ∧ full.running := by decide
/-- Two states that hold different pixels, but equally many. -/
theorem witness_AccumulatorContentIsHidden :
    ∃ s s' t t' : State, s.Inv ∧ s'.Inv ∧ s ≠ s' ∧ s' = { s with acc := s'.acc } ∧ s.accCnt = s'.accCnt ∧
      exec (.rdcsr 4) s = .next t ∧ exec (.rdcsr 4) s' = .next t' :=
  ⟨loaded, { loaded with acc := [[], [⟨⟨0, 0⟩, 1⟩, ⟨⟨0, 0⟩, 2⟩], [], []] }, _, _, loaded_inv,
    State.Inv.of_lists rfl rfl (by decide) (by decide) (by decide) (by decide) rfl rfl (by decide) (by decide) (by decide),
    by decide, rfl, by decide, rfl, rfl⟩
theorem witness_WhoWritesWhat : (∃ t, exec .render overlapping = .next t) ∧ Instr.render.mnemonic ≠ .addslot ∧
    (∃ t, exec (.rdpix 0) overlapping = .next t) ∧ (Instr.rdpix 0).mnemonic ≠ .push ∧ (Instr.rdpix 0).mnemonic ≠ .render :=
  ⟨⟨_, rfl⟩, by decide, ⟨_, rfl⟩, by decide⟩
theorem witness_ReadsHaveNoSideEffect : fresh.running ∧ (31#32).toNat < fresh.params.nCells := by decide
theorem witness_StatusFlagsAreSticky :
    ({ halted with statusOob := true, input := [.command 0] } : State).statusFault = true ∧
    ({ halted with statusOob := true, input := [.command 0] } : State).statusOob = true ∧
    (∃ t, step { halted with statusOob := true, input := [.command 0] } = .next t) ∧ Instr.rdcsr 2 ≠ .rdcsr 1 ∧
    ∃ t, exec (.rdcsr 2) halted = .next t :=
  ⟨by decide, by decide, ⟨_, rfl⟩, by decide, ⟨_, rfl⟩⟩
theorem witness_ResetEventRestoresResetValues :
    ({ halted with input := [.rst] } : State).input = .rst :: [] ∧
    ({ halted with input := [.command 0] } : State).input = .command 0 :: [] ∧ halted.statusFault = true ∧
    ∃ t, step { halted with input := [.command 0] } = .next t :=
  ⟨by decide, by decide, by decide, ⟨_, rfl⟩⟩
theorem witness_RasterAfterResetIsFree :
    ({ halted with input := [.rst] } : State).input = .rst :: [] ∧
    ({ fresh with input := [.rst] } : State).input = .rst :: [] ∧ halted.resets = fresh.resets := by decide
/-- A command, a fault, a reset event and an idle step, each from a state that meets the invariant. -/
theorem witness_StepKeepsInvariant :
    overlapping.Inv ∧ halted.Inv ∧ (∃ t, step (overlapping.withFetchWord 128 0x32) = .next t) ∧
    (∃ t, step { overlapping with input := [.command 0] } = .next t) ∧ (∃ t, step { halted with input := [.rst] } = .next t) ∧
    ∃ t, step halted = .next t :=
  ⟨overlapping_inv, halted_inv, ⟨_, rfl⟩, ⟨_, rfl⟩, ⟨_, rfl⟩, ⟨_, rfl⟩⟩
theorem witness_StepKeepsParameters : ∃ t, step { fresh with input := [.rst] } = .next t := ⟨_, rfl⟩
/-- The offsets and positions of program P2. -/
theorem witness_TwoInstancesLandAtTheirOffsets : fresh.Inv ∧ fresh.running ∧ fresh.nreg = 0 ∧ 2 ≤ fresh.params.nSlots ∧
    2 ≤ fresh.params.accDepth ∧ (0 + 1) * fresh.params.width.toNat + (0 + 1) < fresh.params.nCells ∧
    (0 + 2) * fresh.params.width.toNat + (0 + 5) < fresh.params.nCells ∧
    (0 + 1) * fresh.params.width.toNat + (0 + 1) ≠ (0 + 2) * fresh.params.width.toNat + (0 + 5) := ⟨fresh_inv, by decide⟩
/-- Two interleavings of one pixel of slot 0 and two of slot 1. -/
theorem witness_InterleavingOfPushesIsFree :
    loaded.Inv ∧ loaded.running ∧
    (∀ p ∈ [((1#8 : BitVec 8), (⟨⟨0, 0⟩, 1⟩ : Pixel)), (0, ⟨⟨0, 0⟩, 2⟩), (1, ⟨⟨0, 0⟩, 3⟩)], p.1.toNat < loaded.nreg) ∧
    loaded.accCnt + 3 ≤ loaded.params.accDepth ∧
    ∀ k : BitVec 8, [((1#8 : BitVec 8), (⟨⟨0, 0⟩, 1⟩ : Pixel)), (0, ⟨⟨0, 0⟩, 2⟩), (1, ⟨⟨0, 0⟩, 3⟩)].filter
        (fun p => p.1 == k) =
      [((0#8 : BitVec 8), (⟨⟨0, 0⟩, 2⟩ : Pixel)), (1, ⟨⟨0, 0⟩, 1⟩), (1, ⟨⟨0, 0⟩, 3⟩)].filter (fun p => p.1 == k) :=
  ⟨loaded_inv, by decide, by decide, by decide, by decide⟩
/-- A scene of two Blinkers at the offsets of program P2, and a sequence of PUSHes in the opposite order. -/
theorem witness_FrameRendersTheDocumentScene :
    ∃ (s : State) (sc : Scene), s.Inv ∧ s.running ∧ s.accCnt = 0 ∧ s.nreg = sc.children.length ∧
      (∀ k c, sc.children[k]? = some c → c.slot.toNat = k ∧ c.offset = s.offAt k) ∧
      (sc.documentWrites s.params).length ≤ s.params.accDepth ∧
      (∀ q ∈ [((1#8 : BitVec 8), (⟨⟨0, 0⟩, 0⟩ : Pixel)), (0, ⟨⟨0, 0⟩, 0xFFFFFFFF⟩)], ∃ c ∈ sc.children, c.slot = q.1) ∧
      ∀ c ∈ sc.children, ([((1#8 : BitVec 8), (⟨⟨0, 0⟩, 0⟩ : Pixel)), (0, ⟨⟨0, 0⟩, 0xFFFFFFFF⟩)].filter
        fun q => q.1 == c.slot).map Prod.snd = c.component.render := by
  refine ⟨{ loaded with acc := [[], [], [], []] }, ⟨[⟨newBlinker true, ⟨1, 1⟩, 0⟩, ⟨newBlinker false, ⟨5, 2⟩, 1⟩], 1⟩,
    State.Inv.of_lists rfl rfl (by decide) (by decide) (by decide) (by decide) rfl rfl (by decide) (by decide) (by decide),
    rfl, rfl, rfl, ?_, by decide, by decide, by decide⟩
  intro k c h
  match k, h with
  | 0, h => cases h; decide
  | 1, h => cases h; decide
/-- As many components as slots. -/
theorem witness_RegistrationNumbersTheSlots : fresh.Inv ∧ fresh.running ∧ fresh.nreg = 0 ∧
    ([(newBlinker true, ⟨0, 0⟩), (newBlinker true, ⟨1, 0⟩), (newBlinker true, ⟨2, 0⟩), (newBlinker false, ⟨7, 3⟩)] :
      List (Component × Pos)).length ≤ fresh.params.nSlots := ⟨fresh_inv, by decide⟩
/-- Two frames of one Blinker. -/
theorem witness_FrameLoopShowsEveryFrame :
    ∃ (s : State) (sc : Scene) (scenes : List Scene), s.Inv ∧ s.running ∧ s.accCnt = 0 ∧ s.nreg = sc.children.length ∧
      (∀ k c, sc.children[k]? = some c → c.slot.toNat = k ∧ c.offset = s.offAt k) ∧
      Scene.shown [[[]], [[]]] sc = some scenes ∧ scenes ≠ [] ∧
      ∀ f ∈ scenes, (f.documentWrites s.params).length ≤ s.params.accDepth := by
  refine ⟨{ fresh with nreg := 1 }, ⟨[⟨newBlinker true, ⟨0, 0⟩, 0⟩], 1⟩, _,
    State.Inv.of_lists rfl rfl (by decide) (by decide) (by decide) (by decide) rfl rfl (by decide) (by decide) (by decide),
    rfl, rfl, rfl, ?_, rfl, by decide, by decide⟩
  intro k c h
  match k, h with
  | 0, h => cases h; decide
/-- Two raster lists, one of them not in canonical form, that read alike. -/
theorem witness_RasterListIsNotObservable :
    ∃ s s' t t' : State, s.SameReadings s' ∧ s ≠ s' ∧ step s = .next t ∧ step s' = .next t' := by
  refine ⟨{ fresh with raster := [(1, 5)] }, { fresh with raster := [(1, 5), (1, 6)] }, _, _, ⟨rfl, fun i => ?_⟩,
    by decide, rfl, rfl⟩
  by_cases h : 1 = i
  · subst h; rfl
  · simp [State.rasterAt, Memory.read?, h]
theorem witness_BreatherStepsAndFlips : Channel.red ≠ Channel.green := by decide
/-- A floor cell just above the last row, and a shuffle of two grains. -/
theorem witness_SandGrainsAreConserved :
    ([1, 0] : List Nat).Perm (List.range 2) ∧ (0#16).toNat < (1#16).toNat ∧
    (0xFFFD#16).toNat + 1 < (0xFFFF#16).toNat := by decide
/-- An order that misses a grain, a missing shuffle, and an order that takes one grain twice. -/
theorem witness_SandHasNoTickWithoutAShuffle : ¬ ([0] : List Nat).Perm (List.range 2) ∧
    ¬ ([] : List Nat).Perm (List.range 1) ∧ ¬ ([1, 1] : List Nat).Perm (List.range 2) := by decide
theorem witness_SandClaimCheckKeepsGrainsDistinct :
    [(⟨0, 0⟩ : Pos), ⟨2, 0⟩].Nodup ∧ ([1, 0] : List Nat).Perm (List.range 2) := by decide
theorem witness_LaserTrailGrowsToTen : (1#16 : Coord) ≠ 0 ∧ (0xFFFF#16 : Coord) ≠ 0 ∧
    laserAfter 1 1 7 0 = some (.laser 1 1 [⟨0, 0⟩] .left .up 7) := by decide

end Sys2Proof.Tests
end

section
/-! The scope family: what one word does to the ports and the parameters (spec/00_scope.md R7, R9). -/

namespace Sys2Proof.Machine

/-! ## One response per word -/

/-- `t` comes from `s` by giving exactly one response: the parameters are the same and nothing is taken from the
command port (R7, R9). -/
structure State.AnswersOnce (s t : State) : Prop where
  params : t.params = s.params
  input : t.input = s.input
  output : ∃ r, t.output = s.output ++ [r]

theorem State.answersOnce_respond (s : State) (d : BitVec 64) : s.AnswersOnce (s.respond d) :=
  ⟨rfl, rfl, _, rfl⟩

theorem State.answersOnce_raise (s : State) (f : Cause) (w : Command) : s.AnswersOnce (s.raise f w) :=
  ⟨rfl, rfl, _, rfl⟩

theorem State.answersOnce_refuse (s : State) : s.AnswersOnce s.refuse :=
  ⟨rfl, rfl, _, rfl⟩

theorem State.answersOnce_illegalWord (s : State) (w : Command) : s.AnswersOnce (s.illegalWord w) := by
  unfold State.illegalWord
  obtain ⟨-, h⟩ | ⟨-, h⟩ := s.unlessHalted_cases (State.raise .illegalCommand w)
  · exact h ▸ s.answersOnce_refuse
  · exact h ▸ s.answersOnce_raise _ _

/-- A running block answers a command once: what ADDSLOT, PUSH and RENDER change beside the answer is no port. -/
theorem Effect.answersOnce {s t : State} {i : Instr} (h : Effect s i t) : s.AnswersOnce t := by
  cases h with
  | pure d => exact s.answersOnce_respond d
  | fault f => exact s.answersOnce_raise f _
  | addslot | push | render => exact ⟨rfl, rfl, _, rfl⟩

theorem exec_answersOnce {i : Instr} {s t : State} (h : exec i s = .next t) : s.AnswersOnce t := by
  obtain ⟨-, -, rfl⟩ | ⟨-, n, -, rfl⟩ | ⟨-, he⟩ := exec_cases h
  · exact s.answersOnce_refuse
  · exact s.answersOnce_respond _
  · exact he.answersOnce

theorem acceptWord_answersOnce {w : Command} {s t : State} (h : acceptWord w s = .next t) : s.AnswersOnce t := by
  obtain ⟨i, -, he⟩ | ⟨why, -, rfl⟩ := acceptWord_cases h
  · exact exec_answersOnce he
  · exact s.answersOnce_illegalWord w

/-! ## Steps -/

/-- Everything a step can do: nothing on an idle port, the reset event, or the meaning of a word. -/
theorem step_cases {s t : State} (h : step s = .next t) :
    (s.input = [] ∧ t = s) ∨
    (∃ rest, s.input = .rst :: rest ∧ t = ({ s with input := rest } : State).resetEvent) ∨
    (∃ w rest, s.input = .command w :: rest ∧ acceptWord w { s with input := rest } = .next t) := by
  match hs : s.input with
  | [] => exact .inl ⟨rfl, Host.Outcome.next.inj (h.symm.trans (step_idle hs))⟩
  | .rst :: rest => exact .inr (.inl ⟨rest, rfl, Host.Outcome.next.inj (h.symm.trans (step_rst hs))⟩)
  | .command w :: rest => exact .inr (.inr ⟨w, rest, rfl, (step_word hs).symm.trans h⟩)

/-- A step on a word takes that word and gives one response. -/
theorem step_word_output {s : State} {w : Command} {rest : List HostEvent} (h : s.input = .command w :: rest) :
    ∃ t r, step s = .next t ∧ t.input = rest ∧ t.output = s.output ++ [r] := by
  obtain ⟨t, ht⟩ := step_total s
  obtain ⟨-, hin, r, hout⟩ := acceptWord_answersOnce (step_word h ▸ ht)
  exact ⟨t, r, ht, hin, hout⟩

/-! ## The statements -/

/-- Settles O9, by induction on the words: the first step gives the first response, and the run of the other words starts
where it ends. -/
theorem oneResponsePerCommand : Obligations.OneResponsePerCommand := by
  intro ws
  induction ws with
  | nil =>
    intro s rest hs
    refine ⟨[], rfl, fun n hn => ⟨s, ?_, by simp, by simpa using hs⟩⟩
    rw [Nat.le_zero.mp hn]
    rfl
  | cons w ws ih =>
    intro s rest hs
    obtain ⟨u, r, hstep, hin, hout⟩ := step_word_output hs
    obtain ⟨rs, hlen, hrun⟩ := ih u rest hin
    refine ⟨r :: rs, by simp [hlen], fun n hn => ?_⟩
    cases n with
    | zero => exact ⟨s, rfl, by simp, hs⟩
    | succ n =>
      obtain ⟨t, ht, htout, htin⟩ := hrun n (Nat.le_of_succ_le_succ hn)
      exact ⟨t, (run_next hstep).trans ht, by simp [htout, hout], htin⟩

/-- Settles O47, by the three things a step can do. -/
theorem stepKeepsParameters : Obligations.StepKeepsParameters := by
  intro s t h
  obtain ⟨-, rfl⟩ | ⟨rest, -, rfl⟩ | ⟨w, rest, -, hw⟩ := step_cases h
  · rfl
  · rfl
  · exact (acceptWord_answersOnce hw).params

end Sys2Proof.Machine
end

section
/-! The state family, the invariant (spec/10_state.md R22, R23, R25, R28, R35): it holds at reset and every step keeps
it. -/

namespace Sys2Proof.Machine

/-! ## The reset state -/

@[simp] theorem State.offAt_init (p : Params) (k : Nat) : (State.init p).offAt k = ⟨0, 0⟩ := by
  simp only [State.offAt, State.init_off, List.getElem?_replicate]
  split <;> rfl

@[simp] theorem State.accAt_init (p : Params) (k : Nat) : (State.init p).accAt k = [] := by
  simp only [State.accAt, State.init_acc, List.getElem?_replicate]
  split <;> rfl

@[simp] theorem State.accCnt_init (p : Params) : (State.init p).accCnt = 0 := by
  simp [State.accCnt]

theorem State.inv_init (p : Params) : (State.init p).Inv where
  offLength := by simp
  accLength := by simp
  nregBound := Nat.zero_le _
  offUnregistered k _ := State.offAt_init p k
  accUnregistered k _ := State.accAt_init p k
  accBound := by simp
  rasterWf := rfl
  rasterBelow := rfl
  faultCause := by simp
  causeCodes := by simp
  fcmdClear _ := rfl

/-! ## The operations -/

/-- The invariant speaks neither of the ports nor of the count of reset events. -/
theorem State.Inv.with_ports {s : State} (h : s.Inv) (n : Nat) (i : List HostEvent) (o : List Response) :
    ({ s with resets := n, input := i, output := o } : State).Inv :=
  { h with }

theorem State.Inv.answer {s : State} (h : s.Inv) (st : BitVec 8) (d : BitVec 64) : (s.answer st d).Inv :=
  h.with_ports _ _ _

theorem State.Inv.respond {s : State} (h : s.Inv) (d : BitVec 64) : (s.respond d).Inv := h.answer _ d

theorem State.Inv.refuse {s : State} (h : s.Inv) : s.refuse.Inv := h.answer _ 0

/-- A reset event needs no invariant before it. -/
theorem State.inv_resetEvent (s : State) : s.resetEvent.Inv := (State.inv_init s.params).with_ports _ _ _

/-- R221: a latched cause is not 0. -/
theorem Cause.code_ne_zero (f : Cause) : f.code ≠ 0 := by cases f <;> decide

/-- R221: the codes end at 6. -/
theorem Cause.code_le_six (f : Cause) : f.code.toNat ≤ 6 := by cases f <;> decide

/-- R222: a fault latches the flag together with a cause, so the two still agree. -/
theorem State.Inv.raise {s : State} (h : s.Inv) (f : Cause) (w : Command) : (s.raise f w).Inv :=
  { h with
    faultCause := by simpa using f.code_ne_zero
    causeCodes := f.code_le_six
    fcmdClear := by simp }

theorem State.Inv.illegalWord {s : State} (h : s.Inv) (w : Command) : (s.illegalWord w).Inv := by
  unfold State.illegalWord
  obtain ⟨-, hw⟩ | ⟨-, hw⟩ := s.unlessHalted_cases (State.raise .illegalCommand w)
  · exact hw ▸ h.refuse
  · exact hw ▸ h.raise _ w

/-- R150: a slot is registered while one is free, and the slots above it still hold nothing. -/
theorem State.Inv.register {s : State} (h : s.Inv) (a : Pos) (hn : s.nreg ≠ s.params.nSlots) : (s.register a).Inv :=
  have hlt : s.nreg < s.params.nSlots := Nat.lt_of_le_of_ne h.nregBound hn
  { h with
    offLength := by simp [h.offLength]
    nregBound := hlt
    offUnregistered := fun k hk => by
      have hk' : s.nreg < k := hk
      rw [State.offAt_register a (h.offLength ▸ hlt), if_neg (Nat.ne_of_gt hk'), h.offUnregistered k hk'.le]
    accUnregistered := fun k hk => h.accUnregistered k (Nat.le_of_succ_le hk) }

/-- The list of a registered slot is in the table. -/
theorem State.Inv.slot_lt_length {s : State} (h : s.Inv) {k : Nat} (hk : k < s.nreg) : k < s.acc.length :=
  h.accLength ▸ Nat.lt_of_lt_of_le hk h.nregBound

/-- R152: one pixel more, in a registered slot, while the accumulator has room. -/
theorem State.Inv.append {s : State} (h : s.Inv) {k : Nat} (px : Pixel) (hk : k < s.nreg)
    (hc : s.accCnt ≠ s.params.accDepth) : (s.append k px).Inv :=
  have hlen := h.slot_lt_length hk
  { h with
    accLength := by simp [h.accLength]
    accUnregistered := fun j hj => by
      have hj' : s.nreg ≤ j := hj
      rw [State.accAt_append px hlen, if_neg (Nat.ne_of_gt (Nat.lt_of_lt_of_le hk hj')), h.accUnregistered j hj']
    accBound := by
      rw [State.accCnt_append px hlen]
      exact Nat.lt_of_le_of_ne h.accBound hc }

theorem State.Inv.emptyAcc {s : State} (h : s.Inv) : s.emptyAcc.Inv :=
  { h with
    accLength := by simp [h.accLength]
    accUnregistered := fun k _ => s.accAt_emptyAcc k
    accBound := by simp }

/-- R154: the raster a RENDER leaves is canonical and inside the raster, whatever OOB is then. -/
theorem State.Inv.arbitrate {s : State} (h : s.Inv) (oob : Bool) :
    ({ s with raster := s.arbitrate.raster, statusOob := oob } : State).Inv :=
  { h with
    rasterWf := State.arbitrate_wf h.rasterWf
    rasterBelow := State.arbitrate_below h.rasterBelow }

/-! ## Commands, words and steps -/

theorem Effect.inv {s t : State} {i : Instr} (he : Effect s i t) (h : s.Inv) : t.Inv := by
  cases he with
  | pure d => exact h.respond d
  | fault f => exact h.raise f _
  | addslot a hn => exact (h.register a hn).respond _
  | push slot a data hs hc => exact (h.append _ hs hc).respond _
  | render => exact (h.arbitrate _).emptyAcc.respond _

theorem State.Inv.exec {i : Instr} {s t : State} (h : s.Inv) (he : exec i s = .next t) : t.Inv := by
  obtain ⟨-, -, rfl⟩ | ⟨-, n, -, rfl⟩ | ⟨-, he⟩ := exec_cases he
  · exact h.refuse
  · exact h.respond _
  · exact he.inv h

theorem State.Inv.acceptWord {w : Command} {s t : State} (h : s.Inv) (hw : acceptWord w s = .next t) : t.Inv := by
  obtain ⟨i, -, he⟩ | ⟨why, -, rfl⟩ := acceptWord_cases hw
  · exact h.exec he
  · exact h.illegalWord w

/-- Settles O45, by the three things a step can do: the idle step changes nothing, a reset event gives the reset values,
and a word is a command or an illegal word, each of whose operations keeps the invariant. -/
theorem stepKeepsInvariant : Obligations.StepKeepsInvariant := by
  intro s t h hstep
  obtain ⟨-, rfl⟩ | ⟨rest, -, rfl⟩ | ⟨w, rest, -, hw⟩ := step_cases hstep
  · exact h
  · exact State.inv_resetEvent _
  · exact (h.with_ports s.resets rest s.output).acceptWord hw

/-- Settles O46: the state after reset is an `init`. -/
theorem resetMeetsInvariant : Obligations.ResetMeetsInvariant :=
  ⟨State.inv_init _, State.inv_init⟩

end Sys2Proof.Machine
end

section
/-! The state family, ownership and reset values (spec/10_state.md R22, R23, R25, R26, R30, R35): which command writes
which part of the state, and what the parts and the CSRs hold at reset. -/

namespace Sys2Proof

/-- R7: N_SLOTS is at most 128. -/
theorem Params.nSlots_le (p : Params) : p.nSlots ≤ 128 := p.slotsBelow.isLt

/-- R7: ACC_DEPTH fits 32 bits. -/
theorem Params.accDepth_lt (p : Params) : p.accDepth < 2 ^ 32 := Nat.succ_lt_succ p.depthBelow.isLt

namespace Machine

/-! ## Who writes what -/

/-- R22: only ADDSLOT writes NREG and OFF. -/
theorem exec_keeps_slotTable {i : Instr} {s t : State} (h : exec i s = .next t) (hi : i.mnemonic ≠ .addslot) :
    t.nreg = s.nreg ∧ t.off = s.off := by
  obtain ⟨-, -, rfl⟩ | ⟨-, n, -, rfl⟩ | ⟨-, he⟩ := exec_cases h
  · exact ⟨rfl, rfl⟩
  · exact ⟨rfl, rfl⟩
  · cases he with
    | addslot => exact absurd rfl hi
    | pure | fault | push | render => exact ⟨rfl, rfl⟩

/-- R23: only PUSH and RENDER change ACC. -/
theorem exec_keeps_acc {i : Instr} {s t : State} (h : exec i s = .next t) (hp : i.mnemonic ≠ .push)
    (hr : i.mnemonic ≠ .render) : t.acc = s.acc := by
  obtain ⟨-, -, rfl⟩ | ⟨-, n, -, rfl⟩ | ⟨-, he⟩ := exec_cases h
  · rfl
  · rfl
  · cases he with
    | push => exact absurd rfl hp
    | render => exact absurd rfl hr
    | pure | fault | addslot => rfl

/-- R25, R26, R61: only RENDER writes the raster or OOB. -/
theorem exec_keeps_raster {i : Instr} {s t : State} (h : exec i s = .next t) (hi : i.mnemonic ≠ .render) :
    t.raster = s.raster ∧ t.resets = s.resets ∧ t.statusOob = s.statusOob := by
  obtain ⟨-, -, rfl⟩ | ⟨-, n, -, rfl⟩ | ⟨-, he⟩ := exec_cases h
  · exact ⟨rfl, rfl, rfl⟩
  · exact ⟨rfl, rfl, rfl⟩
  · cases he with
    | render => exact absurd rfl hi
    | pure | fault | addslot | push => exact ⟨rfl, rfl, rfl⟩

/-- Settles O39, by the frame of each part; a cell's reading follows from the raster list and the reset count. -/
theorem whoWritesWhat : Obligations.WhoWritesWhat := by
  intro i s t h
  refine ⟨exec_keeps_slotTable h, exec_keeps_acc h, fun hi => ?_⟩
  obtain ⟨hraster, hresets, hoob⟩ := exec_keeps_raster h hi
  exact ⟨hraster, State.rasterAt_congr hraster hresets, hoob⟩

/-! ## What no word takes back -/

/-- `t` has every flag and every slot that `s` has (R26, R22). -/
structure State.Grows (s t : State) : Prop where
  fault : s.statusFault = true → t.statusFault = true
  oob : s.statusOob = true → t.statusOob = true
  nreg : s.nreg ≤ t.nreg

theorem State.grows_refuse (s : State) : s.Grows s.refuse := ⟨id, id, Nat.le_refl _⟩

theorem State.grows_respond (s : State) (d : BitVec 64) : s.Grows (s.respond d) := ⟨id, id, Nat.le_refl _⟩

theorem State.grows_raise (s : State) (f : Cause) (w : Command) : s.Grows (s.raise f w) :=
  ⟨fun _ => rfl, id, Nat.le_refl _⟩

theorem State.grows_illegalWord (s : State) (w : Command) : s.Grows (s.illegalWord w) := by
  unfold State.illegalWord
  obtain ⟨-, h⟩ | ⟨-, h⟩ := s.unlessHalted_cases (State.raise .illegalCommand w)
  · exact h ▸ s.grows_refuse
  · exact h ▸ s.grows_raise _ w

theorem oobAfter_of_set (n : Nat) : oobAfter true n = true := rfl

theorem Effect.grows {s t : State} {i : Instr} (h : Effect s i t) : s.Grows t := by
  cases h with
  | pure d => exact s.grows_respond d
  | fault f => exact s.grows_raise f _
  | addslot => exact ⟨id, id, Nat.le_succ _⟩
  | push => exact ⟨id, id, Nat.le_refl _⟩
  | render => exact ⟨id, fun ho => by simp [ho, oobAfter_of_set], Nat.le_refl _⟩

theorem acceptWord_grows {w : Command} {s t : State} (h : acceptWord w s = .next t) : s.Grows t := by
  obtain ⟨i, -, he⟩ | ⟨why, -, rfl⟩ := acceptWord_cases h
  · obtain ⟨-, -, rfl⟩ | ⟨-, n, -, rfl⟩ | ⟨-, he⟩ := exec_cases he
    · exact s.grows_refuse
    · exact s.grows_respond _
    · exact he.grows
  · exact s.grows_illegalWord w

/-- A step on a word takes back no flag and no slot. -/
theorem step_word_grows {s t : State} {w : Command} {rest : List HostEvent} (h : s.input = .command w :: rest)
    (hstep : step s = .next t) : s.Grows t := by
  obtain ⟨hf, ho, hn⟩ := acceptWord_grows ((step_word h).symm.trans hstep)
  exact ⟨hf, ho, hn⟩

/-! ## The CSRs at reset -/

/-- R30: the CSRs of the parameters show them whole. -/
theorem State.toNat_csr_width (s : State) : (s.csr 0x05).toNat = s.params.width.toNat :=
  BitVec.toNat_setWidth_of_le (by decide)

theorem State.toNat_csr_height (s : State) : (s.csr 0x06).toNat = s.params.height.toNat :=
  BitVec.toNat_setWidth_of_le (by decide)

theorem State.toNat_csr_nSlots (s : State) : (s.csr 0x07).toNat = s.params.nSlots := by
  have hlt : s.params.nSlots < 2 ^ 8 := Nat.lt_of_le_of_lt s.params.nSlots_le (by decide)
  exact (BitVec.toNat_setWidth_of_le (by decide)).trans ((BitVec.toNat_ofNat _ _).trans (Nat.mod_eq_of_lt hlt))

theorem State.toNat_csr_accDepth (s : State) : (s.csr 0x08).toNat = s.params.accDepth :=
  (BitVec.toNat_ofNat _ _).trans (Nat.mod_eq_of_lt s.params.accDepth_lt)

/-- R23, R35: the CSR of ACCCNT reads 0 at reset. -/
theorem State.csr_accCnt_init (p : Params) : (State.init p).csr 0x04 = 0 :=
  congrArg (BitVec.ofNat 32) (State.accCnt_init p)

/-- Settles O43, by the values of `State.init`, which hold for every choice of the parameters. -/
theorem resetStateValues : Obligations.ResetStateValues :=
  ⟨rfl, State.offAt_init _, State.accAt_init _, State.accCnt_init _, rfl, rfl, rfl, rfl, fun _ => rfl, rfl, rfl, rfl,
    rfl, State.csr_accCnt_init _, State.toNat_csr_width _, State.toNat_csr_height _, State.toNat_csr_nSlots _,
    State.toNat_csr_accDepth _⟩

end Machine

end Sys2Proof
end

section
/-! The state family, noninterference (spec/10_state.md R20, R24, R26): what one command does in two states that
agree on what it looks at. -/

namespace Sys2Proof.Machine

/-! ## The response of a completed command -/

/-- The response data of a completed command that writes no table: R101 to R103, R121 to R124, R141, R157, R158. -/
def State.readout (s : State) : Instr → BitVec 64
  | .getch ch data => (getChannel data ch).setWidth 64
  | .setch ch val data a => pixelData a (setChannel data ch val)
  | .mapch ch fn data a => ((MapFn.ofCode? fn).map fun f => pixelData a (mapChannel data ch f.apply)).getD 0
  | .padd a b => (addPos a b).data
  | .psub a b => (subPos a b).data
  | .pstep dir a => (stepPos dir a).data
  | .dinv dir => (invertDir dir).code.setWidth 64
  | .edges a width height => edgesData (horizontalEdge a.x width) (verticalEdge a.y height)
  | .rdpix index => (s.rasterAt index.toNat).setWidth 64
  | .rdcsr n => (s.csr n).setWidth 64
  | .addslot _ | .push _ _ _ | .render => 0

/-- A completed command that writes no table answers its readout and does nothing else. -/
theorem exec_eq_readout {i : Instr} {s : State} (h : s.statusFault = false)
    (hi : i.mnemonic ∉ [Mnemonic.addslot, .push, .render]) (hs : s.faultOf i = none) :
    exec i s = .next (s.respond (s.readout i)) := by
  cases i with
  | addslot | push | render => simp [Instr.mnemonic] at hi
  | getch | setch | padd | psub | pstep | dinv => exact congrArg Host.Outcome.next (State.unlessHalted_running h _)
  | rdcsr => rfl
  | mapch ch fn data a =>
    have hfn : fn = 0 ∨ fn = 1 := by
      by_contra hn
      simp only [State.faultOf, if_neg hn, reduceCtorEq] at hs
    obtain rfl | rfl := hfn <;> exact congrArg Host.Outcome.next (State.unlessHalted_running h _)
  | edges a width height =>
    have hz : ¬ (width = 0 ∨ height = 0) := fun hz => by simp only [State.faultOf, if_pos hz, reduceCtorEq] at hs
    simp only [exec, execEdges, State.unlessHalted_running h, if_neg hz, State.readout]
  | rdpix index =>
    have hn : ¬ s.params.nCells ≤ index.toNat := fun hn => by simp only [State.faultOf, if_pos hn, reduceCtorEq] at hs
    simp only [exec, execRdpix, State.unlessHalted_running h, if_neg hn, State.readout]

/-- RDCSR answers its readout in every state, halted or not (R224). -/
theorem exec_rdcsr (n : BitVec 8) (s : State) : exec (.rdcsr n) s = .next (s.respond (s.readout (.rdcsr n))) := rfl

/-! ## Two states side by side -/

/-- What a command can do in `s` and in `s'`, side by side: the same kind of change in both. -/
inductive TwinEffect (s s' : State) : Instr → State → State → Prop where
  /-- Both are halted and refuse. -/
  | refused {i : Instr} (h : s.statusFault = true) : TwinEffect s s' i s.refuse s'.refuse
  /-- Both complete with the same data and change nothing else. -/
  | pure {i : Instr} (d : BitVec 64) : TwinEffect s s' i (s.respond d) (s'.respond d)
  /-- Both take the same fault. -/
  | fault {i : Instr} (f : Cause) : TwinEffect s s' i (s.raise f (encode i)) (s'.raise f (encode i))
  /-- Both register a slot. -/
  | addslot (a : Pos) : TwinEffect s s' (.addslot a) ((s.register a).respond (BitVec.ofNat 64 s.nreg))
      ((s'.register a).respond (BitVec.ofNat 64 s'.nreg))
  /-- Both append the pixel. -/
  | push (slot : BitVec 8) (a : Pos) (data : Color) (hs : slot.toNat < s.nreg) (hs' : slot.toNat < s'.nreg) :
      TwinEffect s s' (.push slot a data)
        ((s.append slot.toNat ⟨a, data⟩).respond (BitVec.ofNat 64 (s.append slot.toNat ⟨a, data⟩).accCnt))
        ((s'.append slot.toNat ⟨a, data⟩).respond (BitVec.ofNat 64 (s'.append slot.toNat ⟨a, data⟩).accCnt))
  /-- Both write and empty their accumulators. -/
  | render : TwinEffect s s' .render
      ({ s with raster := s.arbitrate.raster,
                statusOob := oobAfter s.statusOob s.arbitrate.dropped }.emptyAcc.respond s.arbitrate.data)
      ({ s' with raster := s'.arbitrate.raster,
                 statusOob := oobAfter s'.statusOob s'.arbitrate.dropped }.emptyAcc.respond s'.arbitrate.data)

/-- `s` and `s'` agree on what command `i` looks at before it writes: the halted flag, its fault and its readout. -/
structure State.AgreesOn (s s' : State) (i : Instr) : Prop where
  halted : s'.statusFault = s.statusFault
  fault : s'.faultOf i = s.faultOf i
  readout : s'.readout i = s.readout i

/-- Everything a command does in two states that agree on what it looks at. -/
theorem exec_twin {i : Instr} {s s' t t' : State} (ha : s.AgreesOn s' i) (he : exec i s = .next t)
    (he' : exec i s' = .next t') : TwinEffect s s' i t t' := by
  obtain ⟨hhalt, hfault, hread⟩ := ha
  obtain ⟨hf, hi, rfl⟩ | ⟨-, n, rfl, rfl⟩ | ⟨hf, heff⟩ := exec_cases he
  · cases he'.symm.trans (exec_halted (hhalt.trans hf) hi)
    exact .refused hf
  · cases he'.symm.trans (exec_rdcsr n s')
    rw [hread]
    exact .pure _
  · have hf' := hhalt.trans hf
    cases heff with
    | pure d hi hs =>
      rw [Host.Outcome.next.inj (he.symm.trans (exec_eq_readout hf hi hs))]
      cases he'.symm.trans (exec_eq_readout hf' hi (hfault.trans hs))
      rw [hread]
      exact .pure _
    | fault f hs =>
      cases he'.symm.trans (exec_of_faultOf hf' (hfault.trans hs))
      exact .fault f
    | addslot a hn =>
      have hn' : s'.nreg ≠ s'.params.nSlots := by simpa [State.faultOf, hn] using hfault
      cases he'.symm.trans (exec_addslot_free hf' hn')
      exact .addslot a
    | push slot a data hs hc =>
      have hnone : s'.faultOf (.push slot a data) = none := by
        simpa [State.faultOf, Nat.not_le.mpr hs, hc] using hfault
      have hserv := (serviceable_iff s' _).mpr hnone
      simp only [State.serviceable, Bool.and_eq_true, decide_eq_true_eq, bne_iff_ne] at hserv
      obtain ⟨hs', hc'⟩ := hserv
      cases he'.symm.trans (exec_push_room hf' hs' hc')
      exact .push slot a data hs hs'
    | render =>
      cases he'.symm.trans (exec_render_running hf')
      exact .render

/-! ## The pure commands (R20) -/

/-- What a channel, position or bounds command looks at is its word alone. -/
theorem State.agreesOn_of_pure {i : Instr} {s s' : State} (h : s'.statusFault = s.statusFault)
    (hi : i.mnemonic ∈ [Mnemonic.getch, .setch, .mapch, .padd, .psub, .pstep, .dinv, .edges]) : s.AgreesOn s' i := by
  cases i with
  | addslot | push | render | rdpix | rdcsr => simp [Instr.mnemonic] at hi
  | _ => exact ⟨h, rfl, rfl⟩

/-- R82: the status byte stands in bits [71:64] of the response. -/
theorem responseWord_status (st : BitVec 8) (d : BitVec 64) : (responseWord st d).extractLsb' 64 8 = st :=
  BitVec.extractLsb'_append_eq_left

/-- Settles O37: two running states agree on what a pure command looks at, so both complete or both fault; a fault's
status is not 0. -/
theorem pureCommandsDependOnTheirWordOnly : Obligations.PureCommandsDependOnTheirWordOnly := by
  intro i s s' hi hr hr'
  obtain ⟨t, he⟩ := exec_total i s
  obtain ⟨t', he'⟩ := exec_total i s'
  cases exec_twin (State.agreesOn_of_pure (hr'.trans hr.symm) hi) he he' with
  | refused h => simp [hr] at h
  | pure d => exact ⟨_, _, _, he, he', rfl, rfl, fun _ => rfl⟩
  | fault f =>
    refine ⟨_, _, _, he, he', rfl, rfl, fun hst => ?_⟩
    exact absurd ((responseWord_status _ _).symm.trans hst) f.code_ne_zero
  | addslot | push | render => simp [Instr.mnemonic] at hi

/-! ## The CSRs in two states -/

/-- R30: what RDCSR looks at. STATUS is read by CSR 0x01 alone. -/
theorem State.csr_congr {s s' : State} {n : BitVec 8} (hstatus : n = 0x01 → s'.status = s.status)
    (hcause : s'.cause = s.cause) (hfcmd : s'.fcmd = s.fcmd) (hnreg : s'.nreg = s.nreg) (hoff : s'.off = s.off)
    (hacc : s'.accCnt = s.accCnt) (hparams : s'.params = s.params) : s'.csr n = s.csr n := by
  unfold State.csr
  split
  case h_2 => exact hstatus rfl
  all_goals simp only [hcause, hfcmd, hnreg, hacc, hparams, State.offAt, hoff]

/-! ## The hidden pixels (R24) -/

/-- `s` and `s'` differ at most in the pixels held, and hold equally many. -/
structure State.SameButPixels (s s' : State) : Prop where
  eq : s' = { s with acc := s'.acc }
  count : s.accCnt = s'.accCnt

theorem State.SameButPixels.agreesOn {s s' : State} (h : s.SameButPixels s') (i : Instr) : s.AgreesOn s' i := by
  obtain ⟨heq, hcnt⟩ := h
  obtain ⟨acc, rfl⟩ : ∃ acc, s' = { s with acc := acc } := ⟨_, heq⟩
  refine ⟨rfl, ?_, ?_⟩
  · cases i with
    | push => simp only [State.faultOf, hcnt]
    | _ => rfl
  · cases i with
    | rdcsr n => exact congrArg (BitVec.setWidth 64) (State.csr_congr (fun _ => rfl) rfl rfl rfl rfl hcnt.symm rfl)
    | _ => rfl

theorem State.SameButPixels.respond {s s' : State} (h : s.SameButPixels s') (d : BitVec 64) :
    (s.respond d).SameButPixels (s'.respond d) where
  eq := congrArg (State.respond d) h.eq
  count := h.count

/-- The same pixel more in a slot of both tables. -/
theorem State.SameButPixels.append {s s' : State} (h : s.SameButPixels s') {k : Nat} (px : Pixel)
    (hk : k < s.acc.length) (hk' : k < s'.acc.length) : (s.append k px).SameButPixels (s'.append k px) where
  eq := by
    obtain ⟨heq, -⟩ := h
    obtain ⟨acc, rfl⟩ : ∃ acc, s' = { s with acc := acc } := ⟨_, heq⟩
    rfl
  count := by rw [State.accCnt_append px hk, State.accCnt_append px hk', h.count]

/-- Every command but RENDER hides the pixels held. -/
theorem State.SameButPixels.exec {i : Instr} {s s' t t' : State} (h : s.SameButPixels s') (hs : s.Inv) (hs' : s'.Inv)
    (hi : i ≠ .render) (he : exec i s = .next t) (he' : exec i s' = .next t') : t.SameButPixels t' := by
  have htwin := exec_twin (h.agreesOn i) he he'
  obtain ⟨acc, rfl⟩ : ∃ acc, s' = { s with acc := acc } := ⟨_, h.eq⟩
  cases htwin with
  | refused | pure | fault | addslot => exact ⟨rfl, h.count⟩
  | push slot a data hlt hlt' =>
    have happ := h.append ⟨a, data⟩ (hs.slot_lt_length hlt) (hs'.slot_lt_length hlt')
    rw [← happ.count]
    exact happ.respond _
  | render => exact absurd rfl hi

/-- Settles O38: the response is among what is equal after the command. -/
theorem accumulatorContentIsHidden : Obligations.AccumulatorContentIsHidden := by
  intro i s s' t t' hs hs' heq hcnt hi he he'
  obtain ⟨heq', hcnt'⟩ := State.SameButPixels.exec ⟨heq, hcnt⟩ hs hs' hi he he'
  exact ⟨(congrArg State.output heq').symm, heq', hcnt'⟩

/-! ## The flag OOB (R26) -/

theorem State.agreesOn_of_oob {i : Instr} (s : State) (c : Bool) (hi : i ≠ .rdcsr 0x01) :
    s.AgreesOn { s with statusOob := c } i := by
  refine ⟨rfl, by cases i <;> rfl, ?_⟩
  cases i with
  | rdcsr n =>
    refine congrArg (BitVec.setWidth 64) (State.csr_congr (fun hn => ?_) rfl rfl rfl rfl rfl rfl)
    exact absurd (congrArg Instr.rdcsr hn) hi
  | _ => rfl

/-- OOB changes no behaviour: with another OOB a command leads to the same state but for OOB. -/
theorem exec_with_oob {i : Instr} {s t : State} (c : Bool) (hi : i ≠ .rdcsr 0x01) (he : exec i s = .next t) :
    ∃ b, exec i { s with statusOob := c } = .next { t with statusOob := b } := by
  obtain ⟨t', he'⟩ := exec_total i { s with statusOob := c }
  cases exec_twin (s.agreesOn_of_oob c hi) he he' with
  | refused | pure | fault | addslot | push => exact ⟨c, he'⟩
  | render => exact ⟨oobAfter c s.arbitrate.dropped, he'⟩

/-- Settles O41, by what no word takes back and by the two states side by side. -/
theorem statusFlagsAreSticky : Obligations.StatusFlagsAreSticky := by
  refine ⟨fun s t w rest hs hstep => ?_, fun i s t hi he => exec_with_oob _ hi he⟩
  obtain ⟨hfault, hoob, -⟩ := step_word_grows hs hstep
  exact ⟨hfault, hoob⟩

end Sys2Proof.Machine
end

section
/-! The memory family (spec/20_memory.md R51, R52, R57, R60): reads without side effect, the row-major index without
clipping, and PUSHes of different slots in any interleaving. -/

namespace Sys2Proof.Machine

/-! ## Reads (R57) -/

/-- R157: RDPIX in range completes and only answers. -/
theorem exec_rdpix_inRange {index : BitVec 32} {s : State} (hr : s.running) (hi : index.toNat < s.params.nCells) :
    exec (.rdpix index) s = .next (s.respond (s.readout (.rdpix index))) :=
  exec_eq_readout hr (by simp [Instr.mnemonic]) (if_neg (Nat.not_le.mpr hi))

/-- A response given earlier is not among what a read looks at. -/
theorem State.readout_rdpix_respond (s : State) (index : BitVec 32) (d : BitVec 64) :
    (s.respond d).readout (.rdpix index) = s.readout (.rdpix index) := rfl

theorem State.readout_rdcsr_respond (s : State) (n : BitVec 8) (d : BitVec 64) :
    (s.respond d).readout (.rdcsr n) = s.readout (.rdcsr n) :=
  congrArg (BitVec.setWidth 64) (State.csr_congr (fun _ => rfl) rfl rfl rfl rfl rfl rfl)

/-- Settles O40: a read answers its readout and does nothing else, and the readout is the same after the answer. -/
theorem readsHaveNoSideEffect : Obligations.ReadsHaveNoSideEffect := by
  refine ⟨fun index s hr hi => ⟨s.readout (.rdpix index), exec_rdpix_inRange hr hi, ?_⟩,
    fun n s => ⟨s.readout (.rdcsr n), exec_rdcsr n s, ?_⟩⟩
  · have h2 := exec_rdpix_inRange (s := s.respond (s.readout (.rdpix index))) hr hi
    rwa [State.readout_rdpix_respond] at h2
  · have h2 := exec_rdcsr n (s.respond (s.readout (.rdcsr n)))
    rwa [State.readout_rdcsr_respond] at h2

/-! ## The row-major index (R51, R52) -/

/-- R51: the index of the cell in row `y` and column `x`. -/
theorem cellIndex_zero_offset (p : Params) (pos : Pos) :
    cellIndex p ⟨0, 0⟩ pos = pos.y.toNat * p.width.toNat + pos.x.toNat := by
  simp [cellIndex]

section RowMajor
variable {w h x y : Nat}

theorem rowMajor_div (hx : x < w) : (y * w + x) / w = y := by
  rw [Nat.mul_comm, Nat.mul_add_div (Nat.zero_lt_of_lt hx), Nat.div_eq_of_lt hx, Nat.add_zero]

/-- The cells of the rows below `h` are the ones below `w * h`. -/
theorem rowMajor_lt_iff (hx : x < w) : y * w + x < w * h ↔ y < h := by
  rw [Nat.mul_comm w h, ← Nat.div_lt_iff_lt_mul (Nat.zero_lt_of_lt hx), rowMajor_div hx]

/-- A column at or beyond `w` belongs to a later row. -/
theorem row_lt_of_width_le (hw : 0 < w) (hx : w ≤ x) : y < (y * w + x) / w := by
  rw [← Nat.succ_le_iff, Nat.le_div_iff_mul_le hw, Nat.succ_mul]
  exact Nat.add_le_add_left hx _

end RowMajor

/-- A cell in range exists only in a raster that is wide at all. -/
theorem Params.width_pos {p : Params} {i : Nat} (h : i < p.nCells) : 0 < p.width.toNat :=
  Nat.pos_of_mul_pos_right (Nat.zero_lt_of_lt h)

/-- The writes of a RENDER where slot 0 is the only one and holds one pixel. -/
theorem State.renderWrites_single {s : State} {pos : Pos} {c : Color} (hn : s.nreg = 1)
    (ha : s.acc[0]? = some [⟨pos, c⟩]) : s.renderWrites = [(cellIndex s.params (s.offAt 0) pos, c)] := by
  simp [State.renderWrites, State.accAt, hn, ha]

/-- R154: after a RENDER a cell in range holds the last write to it, if there is one. -/
theorem exec_render_lastWrite {s : State} {i : Nat} {c : Color} (hr : s.running) (hi : i < s.params.nCells)
    (hw : lastWrite i s.renderWrites = some c) : ∃ t, exec .render s = .next t ∧ t.rasterAt i = c := by
  refine ⟨_, exec_render_running hr, ?_⟩
  simp only [State.rasterAt, State.respond_raster, State.emptyAcc_raster, State.arbitrate_read?, lastWrite_inRange,
    if_pos hi, hw, Option.some_or, Option.getD_some]

/-- Settles O34: the index is a row-major one, and one write in range lands at its index, whatever its column. -/
theorem indexIsRowMajorWithoutClipping : Obligations.IndexIsRowMajorWithoutClipping := by
  refine ⟨fun p pos hx => ?_, fun s pos c _ hr hn ha hx hi => ?_⟩
  · rw [cellIndex_zero_offset]
    exact ⟨Nat.mul_add_mod_of_lt hx, rowMajor_div hx, rowMajor_lt_iff hx⟩
  · have hlast : lastWrite (cellIndex s.params (s.offAt 0) pos) s.renderWrites = some c := by
      simp [State.renderWrites_single hn ha, lastWrite]
    obtain ⟨t, ht, hc⟩ := exec_render_lastWrite hr hi hlast
    exact ⟨t, ht, hc, row_lt_of_width_le (Params.width_pos hi) hx⟩

/-! ## Words the block reads back -/

/-- The word of a command that matches its row is read back, when its format holds all its operands. -/
theorem decode_encode_of_rowMatch {i : Instr} (hw : i.wellFormed = true) (h : Laws.RowMatch.Statement i)
    (ho : i.mnemonic.operands i.fields = i) : decode (encode i) = .command i :=
  decode_eq_command_iff.mpr ⟨i.mnemonic, (Mnemonic.matches_iff _ _).mp (h hw),
    by rw [encode, Fields.unpack_pack, ho]⟩

theorem decode_encode_push (slot : BitVec 8) (a : Pos) (data : Color) :
    decode (encode (.push slot a data)) = .command (.push slot a data) :=
  decode_encode_of_rowMatch rfl (Laws.RowMatch.push slot a data) rfl

theorem decode_encode_render : decode (encode .render) = .command .render :=
  decode_encode_of_rowMatch rfl Laws.RowMatch.render rfl

/-! ## A sequence of PUSHes (R152) -/

/-- The PUSH of a pixel to a slot. -/
def pushOf (p : BitVec 8 × Pixel) : Instr := .push p.1 p.2.pos p.2.color

/-- The block after the PUSHes of `ps`, but for its responses: each pixel stands at the end of its slot's list. -/
def State.pushed (ps : List (BitVec 8 × Pixel)) (s : State) : State :=
  { s with acc := ps.foldl (fun acc p => acc.modify p.1.toNat fun l => l ++ [p.2]) s.acc }

/-- `s` takes the PUSHes of `ps` without a fault: it runs, their slots are registered, and the accumulator has room for
them (R152, R254). -/
structure State.Admits (s : State) (ps : List (BitVec 8 × Pixel)) : Prop where
  inv : s.Inv
  running : s.running
  registered : ∀ p ∈ ps, p.1.toNat < s.nreg
  room : s.accCnt + ps.length ≤ s.params.accDepth

section Pushes
variable {s : State} {p : BitVec 8 × Pixel} {ps qs : List (BitVec 8 × Pixel)}

theorem State.pushed_cons : s.pushed (p :: ps) = (s.append p.1.toNat p.2).pushed ps := rfl

theorem State.Admits.head_registered (h : s.Admits (p :: ps)) : p.1.toNat < s.nreg :=
  h.registered p List.mem_cons_self

theorem State.Admits.head_room (h : s.Admits (p :: ps)) : s.accCnt ≠ s.params.accDepth := by
  have hroom := h.room
  rw [List.length_cons] at hroom
  omega

/-- After the first PUSH the block takes the others. -/
theorem State.Admits.append (h : s.Admits (p :: ps)) : (s.append p.1.toNat p.2).Admits ps where
  inv := h.inv.append p.2 h.head_registered h.head_room
  running := h.running
  registered q hq := h.registered q (List.mem_cons_of_mem p hq)
  room := by
    rw [State.accCnt_append p.2 (h.inv.slot_lt_length h.head_registered), State.append_params, Nat.add_right_comm]
    exact h.room

/-- Nothing that decides whether PUSHes fault is on a port. -/
theorem State.Admits.with_ports (h : s.Admits ps) (i : List HostEvent) (o : List Response) :
    ({ s with input := i, output := o } : State).Admits ps :=
  { h with inv := h.inv.with_ports s.resets i o }

/-- The PUSHes run to their end and change, beside the responses, only the accumulator. -/
theorem run_pushes (h : s.Admits ps) :
    ∃ o, Sys2Proof.core.run ps.length (s.present (ps.map pushOf)) = .next { s.pushed ps with output := o } := by
  induction ps generalizing s with
  | nil => exact ⟨s.output, rfl⟩
  | cons p ps ih =>
    have hstep := (step_present (decode_encode_push p.1 p.2.pos p.2.color) (ps.map pushOf) s).trans
      (exec_push_room h.running h.head_registered h.head_room)
    obtain ⟨o, ho⟩ := ih (h.append.with_ports s.input _)
    exact ⟨o, (run_next hstep).trans ho⟩

theorem State.inv_pushed (h : s.Admits ps) : (s.pushed ps).Inv := by
  induction ps generalizing s with
  | nil => exact h.inv
  | cons p ps ih => exact ih h.append

/-- R152: a slot gets the pixels of its own PUSHes, in their order. -/
theorem State.accAt_pushed (h : s.Admits ps) (k : BitVec 8) :
    (s.pushed ps).accAt k.toNat = s.accAt k.toNat ++ (ps.filter fun p => p.1 == k).map Prod.snd := by
  induction ps generalizing s with
  | nil => exact (List.append_nil _).symm
  | cons p ps ih =>
    rw [State.pushed_cons, ih h.append, State.accAt_append p.2 (h.inv.slot_lt_length h.head_registered)]
    by_cases hk : p.1 = k
    · simp [hk]
    · simp [hk, Ne.symm hk, BitVec.toNat_inj]

/-- Two sequences that hand each slot the same pixels in the same order leave the same accumulator. -/
theorem State.pushed_congr (hp : s.Admits ps) (hq : s.Admits qs)
    (h : ∀ k : BitVec 8, ps.filter (fun p => p.1 == k) = qs.filter (fun p => p.1 == k)) :
    s.pushed ps = s.pushed qs := by
  have invp := State.inv_pushed hp
  have invq := State.inv_pushed hq
  have hacc : (s.pushed ps).acc = (s.pushed qs).acc := by
    refine State.acc_ext (invp.accLength.trans invq.accLength.symm) fun k => ?_
    obtain hk | hk := Nat.lt_or_ge k s.nreg
    · have hlt : k < 2 ^ 8 := by
        have hle := Nat.le_trans hp.inv.nregBound s.params.nSlots_le
        omega
      have hacc := State.accAt_pushed hp (BitVec.ofNatLT k hlt)
      rwa [h, ← State.accAt_pushed hq] at hacc
    · rw [invp.accUnregistered k hk, invq.accUnregistered k hk]
  exact congrArg (fun acc => { s with acc := acc }) hacc

/-- Sequences with the same part for each slot are permutations of each other. -/
theorem perm_of_filter_slot_eq
    (h : ∀ k : BitVec 8, ps.filter (fun p => p.1 == k) = qs.filter (fun p => p.1 == k)) : ps.Perm qs := by
  refine List.perm_iff_count.mpr fun a => ?_
  have hcount (l : List (BitVec 8 × Pixel)) : (l.filter fun p => p.1 == a.1).count a = l.count a :=
    List.count_filter (beq_self_eq_true a.1)
  rw [← hcount ps, h, hcount]

/-- Whether PUSHes fault does not depend on their order. -/
theorem State.Admits.perm (h : s.Admits ps) (hperm : ps.Perm qs) : s.Admits qs :=
  { h with
    registered := fun q hq => h.registered q (hperm.mem_iff.mpr hq)
    room := hperm.length_eq ▸ h.room }

/-- A run of PUSHes and a RENDER ends as the RENDER does on the accumulator the PUSHes leave. -/
theorem run_pushes_render (h : s.Admits ps) :
    ∃ o, Sys2Proof.core.run (ps.length + 1) (s.present (ps.map pushOf ++ [.render])) =
      exec .render { s.pushed ps with output := o } := by
  obtain ⟨o, ho⟩ := run_pushes (h.with_ports (s.present [.render]).input s.output)
  obtain ⟨t, ht⟩ := exec_total .render { s.pushed ps with output := o }
  have hstep := (step_present decode_encode_render [] { s.pushed ps with output := o }).trans ht
  refine ⟨o, ?_⟩
  rw [State.present_append, ht]
  exact (run_append ho).trans (run_next hstep)

end Pushes

/-- The response of a completed command is the last one. -/
theorem State.getLast?_output_respond (s : State) (d : BitVec 64) :
    (s.respond d).output.getLast? = some (responseWord 0x00 d) :=
  List.getLast?_concat

/-- A RENDER does the same whatever responses were given before it, and gives the same response. -/
theorem exec_render_with_output {s : State} (hr : s.running) (o o' : List Response) :
    ∃ t u, exec .render { s with output := o } = .next t ∧ exec .render { s with output := o' } = .next u ∧
      t = { u with output := t.output } ∧ t.output.getLast? = u.output.getLast? :=
  ⟨_, _, exec_render_running hr, exec_render_running hr, rfl,
    (State.getLast?_output_respond _ _).trans (State.getLast?_output_respond _ _).symm⟩

/-- Settles O49: both sequences leave the same accumulator, and RENDER looks at nothing else that could differ. -/
theorem interleavingOfPushesIsFree : Obligations.InterleavingOfPushesIsFree := by
  intro s ps qs hinv hr hreg hroom hslots
  have hp : s.Admits ps := ⟨hinv, hr, hreg, hroom⟩
  have hq : s.Admits qs := hp.perm (perm_of_filter_slot_eq hslots)
  obtain ⟨o, ho⟩ := run_pushes_render hp
  obtain ⟨o', ho'⟩ := run_pushes_render hq
  rw [← State.pushed_congr hp hq hslots] at ho'
  obtain ⟨t, u, ht, hu, heq⟩ := exec_render_with_output (s := s.pushed ps) hr o o'
  exact ⟨t, u, ho.trans ht, ho'.trans hu, heq⟩

end Sys2Proof.Machine
end

section
/-! The encoding family, words and commands (spec/30_encoding.md R71 to R80, R85): a row's mask says which fields must
be zero, so the decoder and the encoder invert each other and the opcode map decides every word. -/

open Sys2Proof.Claims

namespace Sys2Proof

/-! ## Commands and their fields -/

/-- R77: the check speaks of MAPCH alone, whose function code must be 0 or 1. -/
theorem Instr.wellFormed_iff (i : Instr) : i.wellFormed = true ↔
    (i.mnemonic = .mapch → i.fields.fn = 0 ∨ i.fields.fn = 1) := by
  cases i with
  | mapch ch fn data a => simp [Instr.wellFormed, Instr.mnemonic, Instr.fields]
  | _ => simp [Instr.wellFormed, Instr.mnemonic]

/-- R72, R73: a row reads from a command's fields that command. -/
theorem Instr.operands_fields (i : Instr) : i.mnemonic.operands i.fields = i := by
  cases i with
  | getch | setch | mapch | pstep | dinv =>
    simp [Instr.mnemonic, Instr.fields, Mnemonic.operands, Fields.posA]
  | _ => rfl

/-- R72: from fields that meet its format a row reads a command with those fields. -/
theorem Mnemonic.fields_operands {m : Mnemonic} {f : Fields} (hop : f.op = m.opcode) (hz : unusedZero f m) :
    (m.operands f).fields = f := by
  obtain ⟨op, slot, ch, dir, fn, rsv, val, data, ax, ay, bx, bh⟩ := f
  cases m <;> simp only [Mnemonic.opcode, unusedZero] at hop hz <;>
    simp [Mnemonic.operands, Instr.fields, Fields.posA, Fields.posB, Channel.code_ofCode,
      Direction.code_ofCode, hop, hz]

/-- R72: `rsv` must be zero in every row. -/
theorem rsv_eq_zero_of_unusedZero {m : Mnemonic} {f : Fields} (h : unusedZero f m) : f.rsv = 0 := by
  cases m <;> exact h.1

/-- R72, R77, R78: what a row's mask asks of the fields: the row's opcode, zeros outside its format, and the code 0 or 1
in MAPCH. -/
theorem Mnemonic.and_maskFields_iff (m : Mnemonic) (f : Fields) : f.and m.maskFields = { op := m.opcode } ↔
    f.op = m.opcode ∧ unusedZero f m ∧ (m = .mapch → f.fn = 0 ∨ f.fn = 1) := by
  cases m <;>
    simp only [Fields.and, Mnemonic.maskFields, Mnemonic.opcode, Fields.mk.injEq, unusedZero, BitVec.ofNat_eq_ofNat,
      and_ones2, and_ones8, and_ones16, and_ones32, BitVec.and_zero, fn_high_zero_iff, reduceCtorEq, true_and, and_true,
      false_implies, forall_const] <;>
    tauto

/-- R78: a word matches a row exactly when it has the row's opcode and its fields meet the row's format. -/
theorem Mnemonic.matches_iff_unusedZero (m : Mnemonic) (w : Command) : w &&& m.maskWord = m.matchWord ↔
    w.extractLsb' 0 8 = m.opcode ∧ unusedZero (Fields.unpack w) m ∧
      (m = .mapch → (Fields.unpack w).fn = 0 ∨ (Fields.unpack w).fn = 1) :=
  (m.matches_iff w).trans (m.and_maskFields_iff _)

/-! ## Decoding and encoding -/

/-- R78: the family of the rows, for every command. -/
theorem Laws.RowMatch.all (i : Instr) : Laws.RowMatch.Statement i :=
  match i with
  | .getch ch data => getch ch data
  | .setch ch val data a => setch ch val data a
  | .mapch ch fn data a => mapch ch fn data a
  | .padd a b => padd a b
  | .psub a b => psub a b
  | .pstep dir a => pstep dir a
  | .dinv dir => dinv dir
  | .edges a width height => edges a width height
  | .addslot a => addslot a
  | .push slot a data => push slot a data
  | .render => render
  | .rdpix index => rdpix index
  | .rdcsr csr => rdcsr csr

/-- Settles O1: the word of a well-formed command matches its row, and the row reads every operand back. -/
theorem decodeInvertsEncode : Obligations.DecodeInvertsEncode := fun i hi =>
  Machine.decode_encode_of_rowMatch hi (Laws.RowMatch.all i) i.operands_fields

/-- R72, R77, R78: a decoded command has the fields of its word, and no reserved function code. -/
theorem fields_of_decode {w : Command} {i : Instr} (h : decode w = .command i) :
    i.fields = Fields.unpack w ∧ i.wellFormed = true := by
  obtain ⟨m, hm, rfl⟩ := decode_eq_command_iff.mp h
  obtain ⟨hop, hz, hfn⟩ := (m.and_maskFields_iff _).mp hm
  have hfields := Mnemonic.fields_operands hop hz
  refine ⟨hfields, (Instr.wellFormed_iff _).mpr ?_⟩
  rwa [m.operands_mnemonic, hfields]

/-- R78, log entry 5: a legal word is its command's own word. -/
theorem encode_of_decode {w : Command} {i : Instr} (h : decode w = .command i) : encode i = w := by
  rw [encode, (fields_of_decode h).1, Fields.pack_unpack]

/-- Settles O2: a row's format leaves no bit of the word out, and two commands with one word are both what it decodes
to. -/
theorem encodeInvertsDecode : Obligations.EncodeInvertsDecode := by
  intro w i h
  refine ⟨encode_of_decode h, (fields_of_decode h).2, fun j hj hw => ?_⟩
  have hj' : decode w = .command j := hw ▸ decodeInvertsEncode j hj
  exact Decoded.command.inj (hj'.symm.trans h)

/-! ## The opcode map -/

/-- R78: the written-out table has one row per mnemonic, with the model's three columns. -/
theorem mem_opcodeMap_iff {r : Mnemonic × BitVec 8 × Command × Command} :
    r ∈ opcodeMap ↔ r = (r.1, r.1.opcode, r.1.matchWord, r.1.maskWord) := by
  have hmap : opcodeMap = Mnemonic.all.map fun m => (m, m.opcode, m.matchWord, m.maskWord) := rfl
  have hall (m : Mnemonic) : m ∈ Mnemonic.all := by cases m <;> decide
  rw [hmap, List.mem_map]
  constructor
  · rintro ⟨m, -, rfl⟩
    rfl
  · exact fun h => ⟨r.1, hall r.1, h.symm⟩

/-- R78: a statement about every written-out row is one about every mnemonic. -/
theorem forall_mem_opcodeMap {P : BitVec 8 → Command → Command → Prop} :
    (∀ r ∈ opcodeMap, P r.2.1 r.2.2.1 r.2.2.2) ↔ ∀ m : Mnemonic, P m.opcode m.matchWord m.maskWord := by
  constructor
  · exact fun h m => h (m, m.opcode, m.matchWord, m.maskWord) (mem_opcodeMap_iff.mpr rfl)
  · intro h r hr
    rw [mem_opcodeMap_iff.mp hr]
    exact h r.1

/-- R78: a word decodes to a command of a row exactly when it matches the row. -/
theorem decode_mnemonic_iff (m : Mnemonic) (w : Command) :
    (∃ i, decode w = .command i ∧ i.mnemonic = m) ↔ w &&& m.maskWord = m.matchWord := by
  rw [m.matches_iff]
  constructor
  · rintro ⟨i, hi, rfl⟩
    obtain ⟨m, hm, rfl⟩ := decode_eq_command_iff.mp hi
    rwa [m.operands_mnemonic]
  · exact fun hm => ⟨_, decode_eq_command_iff.mpr ⟨m, hm, rfl⟩, m.operands_mnemonic _⟩

/-- R78: the mask covers the opcode. -/
theorem Mnemonic.opcode_of_matches {m : Mnemonic} {w : Command} (h : w &&& m.maskWord = m.matchWord) :
    w.extractLsb' 0 8 = m.opcode :=
  ((m.matches_iff_unusedZero w).mp h).1

/-- Settles O3: the masks cover the opcode, and no two rows have one opcode. -/
theorem opcodeMapDecidesEveryWord : Obligations.OpcodeMapDecidesEveryWord := by
  constructor
  · intro m op match_ mask hr w
    obtain ⟨rfl, rfl, rfl⟩ : op = m.opcode ∧ match_ = m.matchWord ∧ mask = m.maskWord := by
      simpa using mem_opcodeMap_iff.mp hr
    exact ⟨decode_mnemonic_iff m w, Mnemonic.opcode_of_matches⟩
  · intro r hr r' hr' w h h'
    rw [mem_opcodeMap_iff] at hr hr'
    rw [hr] at h
    rw [hr'] at h'
    have hm : r.1 = r'.1 :=
      Mnemonic.opcode_injective ((Mnemonic.opcode_of_matches h).symm.trans (Mnemonic.opcode_of_matches h'))
    rw [hr, hr', hm]

/-- Settles O4: on a word with the row's opcode the decoder tests the rest of the row's mask. -/
theorem unusedFieldsMustBeZero : Obligations.UnusedFieldsMustBeZero := by
  intro m w hop
  have hrow : (∃ i, decode w = .command i) ↔ (Fields.unpack w).and m.maskFields = { op := m.opcode } := by
    rw [decode_of_opcode hop]
    split
    · next h => exact iff_of_true ⟨_, rfl⟩ h
    · next h => exact iff_of_false (by simp) h
  rw [hrow, m.and_maskFields_iff, Fields.unpack_op, and_iff_right hop]

/-! ## Illegal words -/

/-- A word decodes to a command or is illegal. -/
theorem illegal_iff_not_command (w : Command) :
    (∃ why, decode w = .illegal why) ↔ ¬ ∃ i, decode w = .command i := by
  cases decode w <;> simp

/-- R80: a word is illegal exactly when it matches no row. -/
theorem illegal_iff_matches_none (w : Command) :
    (∃ why, decode w = .illegal why) ↔ ∀ m : Mnemonic, w &&& m.maskWord ≠ m.matchWord := by
  simp only [illegal_iff_not_command, ne_eq, ← decode_mnemonic_iff]
  constructor
  · exact fun h m ⟨i, hi, _⟩ => h ⟨i, hi⟩
  · exact fun h ⟨i, hi⟩ => h i.mnemonic ⟨i, hi, rfl⟩

/-- R71: bit 21 of a word is the high bit of its function code. -/
theorem Fields.fn_high_bit (w : Command) : (Fields.unpack w).fn.getLsbD 1 = w.getLsbD 21 := by
  simp [Fields.unpack]

/-- Settles O6, by evaluation. -/
theorem sampleWordsDecode : Obligations.SampleWordsDecode := by
  unfold Obligations.SampleWordsDecode
  decide

end Sys2Proof
end

section
/-! The encoding family, what the block does with a word (spec/30_encoding.md R70, R80). -/

open Sys2Proof.Claims

namespace Sys2Proof.Machine

/-! ## The shapes the statements name -/

theorem State.not_running_iff {s : State} : ¬ s.running ↔ s.statusFault = true := by simp

/-- R80: an illegal word on a running block. -/
theorem State.illegalWord_running {s : State} (h : s.running) (w : Command) : s.illegalWord w = latched 0x01 w s :=
  s.unlessHalted_running h _

/-- R224: an illegal word on a halted block. -/
theorem State.illegalWord_halted {s : State} (h : ¬ s.running) (w : Command) : s.illegalWord w = turnedAway s :=
  s.unlessHalted_halted (State.not_running_iff.mp h) _

/-- Settles O7: the step takes the word, and the word is its command. -/
theorem stepRunsTheDecodedCommand : Obligations.StepRunsTheDecodedCommand := by
  intro s w rest i hin hd
  rw [step_word hin, acceptWord, hd]

/-- R80: a step on an illegal word. -/
theorem step_illegal {s : State} {w : Command} {rest : List HostEvent} {why : DecodeError}
    (hin : s.input = .command w :: rest) (hd : decode w = .illegal why) :
    step s = .next (({ s with input := rest } : State).illegalWord w) := by
  rw [step_word hin, acceptWord, hd]

/-- Settles O5: the illegal words are those that match no row, so each way to miss a row makes a word illegal. -/
theorem illegalWordsFault : Obligations.IllegalWordsFault := by
  refine ⟨fun w => ?_, fun w hop => ?_, ⟨.unknownOpcode, by decide⟩, fun m w hop hz => ?_, fun w hrsv => ?_,
    fun w hop hbit => ?_, fun s w rest why hr hin hd => ?_⟩
  · rw [illegal_iff_matches_none]
    exact (forall_mem_opcodeMap (P := fun _ match_ mask => w &&& mask ≠ match_)).symm
  · have hop' := (forall_mem_opcodeMap (P := fun op _ _ => w.extractLsb' 0 8 ≠ op)).mp hop
    exact (illegal_iff_matches_none w).mpr fun m hm => hop' m (Mnemonic.opcode_of_matches hm)
  · rw [illegal_iff_not_command, unusedFieldsMustBeZero m w hop]
    exact fun h => hz h.1
  · refine (illegal_iff_matches_none w).mpr fun m hm => ?_
    obtain ⟨-, hz, -⟩ := (m.matches_iff_unusedZero w).mp hm
    exact hrsv (rsv_eq_zero_of_unusedZero hz)
  · rw [illegal_iff_not_command, unusedFieldsMustBeZero .mapch w hop]
    rintro ⟨-, hfn⟩
    rw [← Fields.fn_high_bit] at hbit
    obtain h | h := hfn rfl <;> simp [h] at hbit
  · rw [step_illegal hin hd, State.illegalWord_running (s := { s with input := rest }) hr]

/-! ## The outcomes of a word (R70) -/

/-- R221: the codes of the causes other than IllegalCommand start at 2. -/
theorem Cause.two_le_code {f : Cause} (h : f ≠ .illegalCommand) : 2 ≤ f.code.toNat := by
  cases f with
  | illegalCommand => exact absurd rfl h
  | _ => decide

/-- R81: no operand of a well-formed command is an encoding error. -/
theorem State.faultOf_ne_illegalCommand (s : State) {i : Instr} (hi : i.wellFormed = true) :
    s.faultOf i ≠ some .illegalCommand := by
  cases i with
  | mapch ch fn data a =>
    have hfn : fn = 0 ∨ fn = 1 := (Instr.wellFormed_iff _).mp hi rfl
    simp only [State.faultOf, if_pos hfn, ne_eq, reduceCtorEq, not_false_eq_true]
  | edges | addslot | push | rdpix =>
    simp only [State.faultOf]
    split_ifs <;> simp
  | _ => simp [State.faultOf]

/-- A running block completes a command, with status 0, or takes the command's fault. -/
theorem Effect.completes_or_faults {s t : State} {i : Instr} (h : Effect s i t) :
    (t.statusFault = s.statusFault ∧ ∃ d, t.output = s.output ++ [responseWord 0x00 d]) ∨
    (∃ f, s.faultOf i = some f ∧ t = s.raise f (encode i)) := by
  cases h with
  | pure | addslot | push | render => exact .inl ⟨rfl, _, rfl⟩
  | fault f hf => exact .inr ⟨f, hf, rfl⟩

/-- Settles O8, by what a word can be and what a command can do in a halted and in a running state. -/
theorem everyWordHasOneOutcome : Obligations.EveryWordHasOneOutcome := by
  intro s w rest hin
  obtain ⟨t, ht⟩ := step_total s
  refine ⟨t, ht, ?_⟩
  obtain ⟨i, hd, he⟩ | ⟨why, hd, rfl⟩ := acceptWord_cases ((step_word hin).symm.trans ht)
  · obtain ⟨hh, hi, rfl⟩ | ⟨hh, n, rfl, rfl⟩ | ⟨hr, he⟩ := exec_cases he
    · refine .inr (.inr (.inr (.inr ⟨State.not_running_iff.mpr hh, ?_, rfl⟩)))
      rintro ⟨n, hn⟩
      exact hi (Decoded.command.inj (hd.symm.trans hn) ▸ rfl)
    · exact .inr (.inr (.inr (.inl ⟨State.not_running_iff.mpr hh, ⟨n, hd⟩, _, rfl⟩)))
    · obtain ⟨ht, d, hout⟩ | ⟨f, hf, rfl⟩ := he.completes_or_faults
      · exact .inl ⟨hr, ⟨i, hd⟩, ht.trans hr, d, hout⟩
      · have hne : f ≠ .illegalCommand := by
          rintro rfl
          exact State.faultOf_ne_illegalCommand _ (fields_of_decode hd).2 hf
        rw [encode_of_decode hd]
        exact .inr (.inl ⟨hr, ⟨i, hd⟩, f.code, Cause.two_le_code hne, f.code_le_six, rfl⟩)
  · by_cases hr : s.running
    · exact .inr (.inr (.inl ⟨hr, ⟨why, hd⟩, State.illegalWord_running (s := { s with input := rest }) hr w⟩))
    · refine .inr (.inr (.inr (.inr ⟨hr, ?_, State.illegalWord_halted (s := { s with input := rest }) hr w⟩)))
      simp [hd]

end Sys2Proof.Machine
end

section
/-! The encoding family, the channels (spec/30_encoding.md R75). -/

open Sys2Proof.Claims

namespace Sys2Proof.Machine

/-- Eight bits masked in place and shifted down are the slice. -/
theorem mask_shift_eq_slice (c : Color) {k : Nat} (hk : k ≤ 24) :
    ((c &&& 0xFF#32 <<< k) >>> k).setWidth 8 = c.extractLsb' k 8 := by
  ext i hi
  have hmask : (0xFF#32).getLsbD i = true := by interval_cases i <;> rfl
  have h32 : k + i < 32 := by omega
  simp [hmask, h32]

/-- R75: the slice's lowest bit, by the code. -/
theorem channelShift_eq (ch : Channel) : channelShift ch = 8 * (3 - ch.code.toNat) := by
  cases ch <;> rfl

theorem channelShift_le (ch : Channel) : channelShift ch ≤ 24 := by
  cases ch <;> decide

/-- R75, R100: reading a channel is taking its slice. -/
theorem getChannel_eq_slice (c : Color) (ch : Channel) : getChannel c ch = slice c ch :=
  (mask_shift_eq_slice c (channelShift_le ch)).trans (by rw [slice, channelShift_eq])

/-- Settles O17: the masks complement each other, and a channel read is the slice. -/
theorem channelSlicesAndMasks : Obligations.ChannelSlicesAndMasks := fun ch =>
  ⟨channelShift_eq ch, rfl, rfl, (BitVec.or_not_self _).trans (by decide), BitVec.and_not_self _,
    Channel.ofCode_code ch, fun c => getChannel_eq_slice c ch, rfl⟩

end Sys2Proof.Machine
end

section
/-! The channel family (spec/40_channel.md R101 to R104): a channel write in bits and the algebra it gives, the words of
one row, and the three channel commands. -/

open Sys2Proof.Claims

namespace Sys2Proof

/-! ## The words of a row -/

/-- R71, R72, R77: a word with a row's opcode is the row's command when its fields meet the row's mask, else illegal. -/
theorem wordsOf_row {m : Mnemonic} {ok : Fields → Prop}
    (h : ∀ f, ok f ↔ unusedZero f m ∧ (m = .mapch → f.fn = 0 ∨ f.fn = 1)) : wordsOf m.opcode ok m.operands := by
  intro w hop
  have hmask : ok (Fields.unpack w) ↔ (Fields.unpack w).and m.maskFields = { op := m.opcode } := by
    rw [h, m.and_maskFields_iff, Fields.unpack_op, and_iff_right hop]
  rw [decode_of_opcode hop]
  exact ⟨fun hok => if_pos (hmask.mp hok), fun hok => ⟨.mustBeZero m, if_neg (mt hmask.mpr hok)⟩⟩

/-- R72: outside MAPCH the row asks only for zeros outside its format. -/
theorem wordsOf_unusedZero {m : Mnemonic} (hm : m ≠ .mapch) : wordsOf m.opcode (unusedZero · m) m.operands :=
  wordsOf_row fun _ => (and_iff_left fun h => absurd h hm).symm

namespace Machine

/-! ## The channel algebra -/

/-- R75: the mask has ones at the channel's slice and nowhere else. -/
theorem getLsbD_positiveMask (ch : Channel) (i : Nat) :
    (positiveMask ch).getLsbD i = decide (channelShift ch ≤ i ∧ i < channelShift ch + 8) := by
  have hones : (0xFF#32).getLsbD (i - channelShift ch) = decide (i - channelShift ch < 8) := by
    have hmask : 0xFF#32 = (BitVec.allOnes 8).setWidth 32 := by decide
    rw [hmask, BitVec.getLsbD_setWidth, BitVec.getLsbD_allOnes]
    grind
  have := channelShift_le ch
  rw [positiveMask, BitVec.getLsbD_shiftLeft, hones]
  grind

/-- R100: a channel write, bit by bit. -/
theorem getLsbD_setChannel (c : Color) (ch : Channel) (v : ChannelValue) {i : Nat} (hi : i < 32) :
    (setChannel c ch v).getLsbD i =
      if channelShift ch ≤ i ∧ i < channelShift ch + 8 then v.getLsbD (i - channelShift ch) else c.getLsbD i := by
  simp only [setChannel, negativeMask, BitVec.getLsbD_or, BitVec.getLsbD_and, BitVec.getLsbD_not,
    getLsbD_positiveMask, BitVec.getLsbD_shiftLeft, BitVec.getLsbD_setWidth]
  grind

/-- R75: a slice, bit by bit. -/
theorem getLsbD_slice (c : Color) (ch : Channel) {i : Nat} (hi : i < 8) :
    (slice c ch).getLsbD i = c.getLsbD (channelShift ch + i) := by
  simp [slice, ← channelShift_eq, hi]

/-- R75: the slices of two channels lie apart. -/
theorem channelShift_apart : ∀ ch ch' : Channel, ch' ≠ ch →
    channelShift ch' + 8 ≤ channelShift ch ∨ channelShift ch + 8 ≤ channelShift ch' := by
  rintro (_ | _ | _ | _) (_ | _ | _ | _) <;> decide

/-- R104 (c). -/
theorem slice_setChannel_same (c : Color) (ch : Channel) (v : ChannelValue) : slice (setChannel c ch v) ch = v := by
  refine BitVec.eq_of_getLsbD_eq fun i hi => ?_
  have := channelShift_le ch
  rw [getLsbD_slice _ _ hi, getLsbD_setChannel _ _ _ (by omega), if_pos (by omega), Nat.add_sub_cancel_left]

/-- R104 (d). -/
theorem slice_setChannel_of_ne (c : Color) {ch ch' : Channel} (v : ChannelValue) (h : ch' ≠ ch) :
    slice (setChannel c ch v) ch' = slice c ch' := by
  refine BitVec.eq_of_getLsbD_eq fun i hi => ?_
  have := channelShift_le ch'
  have := channelShift_apart ch ch' h
  rw [getLsbD_slice _ _ hi, getLsbD_slice _ _ hi, getLsbD_setChannel _ _ _ (by omega), if_neg (by omega)]

/-- R104 (a). -/
theorem setChannel_slice (c : Color) (ch : Channel) : setChannel c ch (slice c ch) = c := by
  refine BitVec.eq_of_getLsbD_eq fun i hi => ?_
  rw [getLsbD_setChannel _ _ _ hi]
  split
  · rw [getLsbD_slice _ _ (by omega), Nat.add_sub_cancel' (by omega)]
  · rfl

/-- R104 (b). -/
theorem setChannel_and_negativeMask (c : Color) (ch : Channel) (v : ChannelValue) :
    setChannel c ch v &&& negativeMask ch = c &&& negativeMask ch := by
  refine BitVec.eq_of_getLsbD_eq fun i hi => ?_
  rw [BitVec.getLsbD_and, BitVec.getLsbD_and, getLsbD_setChannel _ _ _ hi, negativeMask, BitVec.getLsbD_not,
    getLsbD_positiveMask]
  split
  · next h => simp [h]
  · rfl

/-- Settles O18: a channel write replaces the bits of its slice and no other, and the slices lie apart. -/
theorem channelAlgebraLaws : Obligations.ChannelAlgebraLaws := by
  intro c ch v
  simp only [getChannel_eq_slice]
  exact ⟨setChannel_slice c ch, setChannel_and_negativeMask c ch v, slice_setChannel_same c ch v,
    fun ch' h => slice_setChannel_of_ne c v h.symm⟩

/-! ## GETCH and SETCH -/

theorem exec_getch {s : State} (hr : s.running) (ch : Channel) (data : Color) :
    exec (.getch ch data) s = .next (answered ((slice data ch).setWidth 64) s) := by
  rw [← getChannel_eq_slice]
  exact exec_eq_readout hr (by simp [Instr.mnemonic]) rfl

/-- Settles O19: the answer is the channel read, which is the slice. -/
theorem getchReturnsOneChannel : Obligations.GetchReturnsOneChannel :=
  ⟨fun ch data _ hr => exec_getch hr ch data, wordsOf_unusedZero (m := .getch) (by decide), by decide,
    fun _ hr => exec_getch hr .red 0x00FF0000⟩

theorem exec_setch {s : State} (hr : s.running) (ch : Channel) (val : ChannelValue) (data : Color) (a : Pos) :
    exec (.setch ch val data a) s = .next (answered (a.y ++ a.x ++ setChannel data ch val) s) :=
  exec_eq_readout hr (by simp [Instr.mnemonic]) rfl

/-- Settles O20: the colour answered is the channel write of `val`. -/
theorem setchReplacesOneChannel : Obligations.SetchReplacesOneChannel :=
  ⟨fun ch val data a _ hr => ⟨setChannel data ch val, exec_setch hr ch val data a, slice_setChannel_same data ch val,
      fun _ h => slice_setChannel_of_ne data val h⟩,
    wordsOf_unusedZero (m := .setch) (by decide), by decide, fun _ hr => exec_setch hr .red 0xFF 0 ⟨0, 0⟩⟩

/-! ## MAPCH -/

/-- R77, R107: DEC saturates at 0. -/
theorem MapFn.toNat_apply_dec (v : ChannelValue) : (MapFn.dec.apply v).toNat = v.toNat - 1 := by
  by_cases h : v = 0
  · simp [MapFn.apply, h]
  · simp only [MapFn.apply, if_neg h]
    bv_omega

/-- R77, R107: INC saturates at 255. -/
theorem MapFn.toNat_apply_inc (v : ChannelValue) : (MapFn.inc.apply v).toNat = min 255 (v.toNat + 1) := by
  by_cases h : v = 255
  · simp [MapFn.apply, h]
  · simp only [MapFn.apply, if_neg h]
    bv_omega

/-- R77: the codes 0 and 1 name the two map functions, each saturating at its end. -/
theorem MapFn.exists_ofCode {fn : BitVec 2} (h : fn = 0 ∨ fn = 1) : ∃ f, MapFn.ofCode? fn = some f ∧
    ∀ v, (f.apply v).toNat = if fn = 0 then v.toNat - 1 else min 255 (v.toNat + 1) := by
  obtain rfl | rfl := h
  · exact ⟨.dec, rfl, MapFn.toNat_apply_dec⟩
  · exact ⟨.inc, rfl, MapFn.toNat_apply_inc⟩

theorem exec_mapch {s : State} (hr : s.running) {fn : BitVec 2} {f : MapFn} (hf : MapFn.ofCode? fn = some f)
    (ch : Channel) (data : Color) (a : Pos) :
    exec (.mapch ch fn data a) s = .next (answered (a.y ++ a.x ++ mapChannel data ch f.apply) s) := by
  simp only [exec, execMapch, State.unlessHalted_running hr, hf]
  rfl

/-- Settles O21: the colour answered is the channel write of the stepped channel. -/
theorem mapchStepsOneChannelSaturating : Obligations.MapchStepsOneChannelSaturating := by
  refine ⟨fun ch fn data a s hr hfn => ?_, wordsOf_row (m := .mapch) (by simp), by decide,
    fun s hr => exec_mapch hr (fn := 0) (f := .dec) rfl .red 0x00FF0000 ⟨0, 0⟩⟩
  obtain ⟨f, hf, hstep⟩ := MapFn.exists_ofCode hfn
  refine ⟨mapChannel data ch f.apply, exec_mapch hr hf ch data a, ?_, fun ch' h => slice_setChannel_of_ne data _ h⟩
  rw [mapChannel, slice_setChannel_same, getChannel_eq_slice]
  exact hstep _

end Machine

end Sys2Proof
end

section
/-! The position family (spec/41_position.md R120 to R125): the exact result of one axis and its wrap bit, one step as a
unit sum or difference, the inverse of a direction, and the four commands. -/

open Sys2Proof.Claims

namespace Sys2Proof.Machine

/-! ## One axis (R125) -/

/-- R125: `r` is the exact result `e` modulo 65536, and `wrap` says that `e` lies outside 0 to 65535. -/
def ExactAxis (r : Coord) (wrap : Bool) (e : Int) : Prop :=
  (r.toNat : Int) = e % 65536 ∧ (wrap = true ↔ e < 0 ∨ 65535 < e)

theorem exactAxis_add (a b : Coord) : ExactAxis (a + b) (carry16 a b) (a.toNat + b.toNat) := by
  constructor
  · rw [BitVec.toNat_add]
    omega
  · simp only [carry16, decide_eq_true_eq]
    omega

theorem exactAxis_sub (a b : Coord) : ExactAxis (a - b) (borrow16 a b) (a.toNat - b.toNat) := by
  constructor
  · rw [BitVec.toNat_sub]
    omega
  · simp only [borrow16, decide_eq_true_eq]
    omega

/-! ## Positions -/

/-- R125: both axes of `r` report the exact results `ex` and `ey`, each its own. -/
def Wrapped.Exact (r : Wrapped) (ex ey : Int) : Prop :=
  (r.pos.x.toNat : Int) = ex % 65536 ∧ (r.pos.y.toNat : Int) = ey % 65536 ∧
    (r.wrapX = true ↔ ex < 0 ∨ 65535 < ex) ∧ (r.wrapY = true ↔ ey < 0 ∨ 65535 < ey)

theorem Wrapped.Exact.of_axes {r : Wrapped} {ex ey : Int} (hx : ExactAxis r.pos.x r.wrapX ex)
    (hy : ExactAxis r.pos.y r.wrapY ey) : r.Exact ex ey :=
  ⟨hx.1, hy.1, hx.2, hy.2⟩

theorem addPos_exact (a b : Pos) : (addPos a b).Exact (a.x.toNat + b.x.toNat) (a.y.toNat + b.y.toNat) :=
  .of_axes (exactAxis_add a.x b.x) (exactAxis_add a.y b.y)

theorem subPos_exact (a b : Pos) : (subPos a b).Exact (a.x.toNat - b.x.toNat) (a.y.toNat - b.y.toNat) :=
  .of_axes (exactAxis_sub a.x b.x) (exactAxis_sub a.y b.y)

/-! ## One step (R123) -/

theorem carry16_zero (a : Coord) : carry16 a 0#16 = false := by
  simpa [carry16] using a.isLt

theorem borrow16_zero (a : Coord) : borrow16 a 0#16 = false := by
  simp [borrow16]

theorem carry16_one (a : Coord) : carry16 a 1 = decide (a = 0xFFFF) := by
  rw [carry16, decide_eq_decide]
  bv_omega

theorem borrow16_one (a : Coord) : borrow16 a 1 = decide (a = 0) := by
  rw [borrow16, decide_eq_decide]
  bv_omega

theorem stepPos_up (a : Pos) : stepPos .up a = subPos a ⟨0, 1⟩ := by
  simp [stepPos, subPos, borrow16_zero]

theorem stepPos_down (a : Pos) : stepPos .down a = addPos a ⟨0, 1⟩ := by
  simp [stepPos, addPos, carry16_zero]

theorem stepPos_left (a : Pos) : stepPos .left a = subPos a ⟨1, 0⟩ := by
  simp [stepPos, subPos, borrow16_zero]

theorem stepPos_right (a : Pos) : stepPos .right a = addPos a ⟨1, 0⟩ := by
  simp [stepPos, addPos, carry16_zero]

/-- Settles O27: sum and difference are exact on each axis, and a step is the sum or difference with a unit vector. -/
theorem wrapBitsReportInexactResults : Obligations.WrapBitsReportInexactResults := by
  refine ⟨addPos_exact, subPos_exact, fun dir a => ?_⟩
  cases dir with
  | up => exact ⟨0, -1, rfl, stepPos_up a ▸ subPos_exact a ⟨0, 1⟩⟩
  | down => exact ⟨0, 1, rfl, stepPos_down a ▸ addPos_exact a ⟨0, 1⟩⟩
  | left => exact ⟨-1, 0, rfl, stepPos_left a ▸ subPos_exact a ⟨1, 0⟩⟩
  | right => exact ⟨1, 0, rfl, stepPos_right a ▸ addPos_exact a ⟨1, 0⟩⟩

/-! ## PADD and PSUB -/

theorem exec_padd {s : State} (hr : s.running) (a b : Pos) :
    exec (.padd a b) s = .next (answered (addPos a b).data s) :=
  exec_eq_readout hr (by simp [Instr.mnemonic]) rfl

/-- Settles O23: the answer is the sum with its carries. -/
theorem paddAddsPositions : Obligations.PaddAddsPositions :=
  ⟨fun a b _ hr => exec_padd hr a b, wordsOf_unusedZero (m := .padd) (by decide), by decide,
    fun _ hr => exec_padd hr ⟨3, 4⟩ ⟨10, 20⟩⟩

theorem exec_psub {s : State} (hr : s.running) (a b : Pos) :
    exec (.psub a b) s = .next (answered (subPos a b).data s) :=
  exec_eq_readout hr (by simp [Instr.mnemonic]) rfl

/-- Settles O24: the answer is the difference with its borrows. -/
theorem psubSubtractsPositions : Obligations.PsubSubtractsPositions :=
  ⟨fun a b _ hr => exec_psub hr a b, wordsOf_unusedZero (m := .psub) (by decide), by decide,
    fun _ hr => exec_psub hr ⟨0, 5⟩ ⟨1, 0⟩⟩

/-! ## PSTEP -/

theorem exec_pstep {s : State} (hr : s.running) (dir : Direction) (a : Pos) :
    exec (.pstep dir a) s = .next (answered (stepPos dir a).data s) :=
  exec_eq_readout hr (by simp [Instr.mnemonic]) rfl

/-- R123: PSTEP does in every state, halted or not, what PADD does with a vector that makes the step. -/
theorem exec_pstep_eq_padd {dir : Direction} {a b : Pos} (h : stepPos dir a = addPos a b) (s : State) :
    exec (.pstep dir a) s = exec (.padd a b) s := by
  simp only [exec, execPstep, execPadd, h]

/-- R123: PSTEP does in every state, halted or not, what PSUB does with a vector that undoes the step. -/
theorem exec_pstep_eq_psub {dir : Direction} {a b : Pos} (h : stepPos dir a = subPos a b) (s : State) :
    exec (.pstep dir a) s = exec (.psub a b) s := by
  simp only [exec, execPstep, execPsub, h]

/-- Settles O25: the wrap bit of a step is the carry or borrow of 1, which marks one coordinate. -/
theorem pstepMovesOneStep : Obligations.PstepMovesOneStep := by
  refine ⟨fun a s hr => ?_, fun a s => ?_, wordsOf_unusedZero (m := .pstep) (by decide), by decide,
    fun s hr => exec_pstep hr .left ⟨0, 3⟩⟩
  · simp only [← borrow16_one, ← carry16_one]
    exact ⟨exec_pstep hr .up a, exec_pstep hr .down a, exec_pstep hr .left a, exec_pstep hr .right a⟩
  · exact ⟨exec_pstep_eq_psub (stepPos_up a) s, exec_pstep_eq_padd (stepPos_down a) s,
      exec_pstep_eq_psub (stepPos_left a) s, exec_pstep_eq_padd (stepPos_right a) s⟩

/-! ## DINV -/

/-- R124, R76: the code of the inverse has bit 0 flipped. -/
theorem code_invertDir (dir : Direction) : (invertDir dir).code = dir.code ^^^ 1#2 := by
  cases dir <;> rfl

theorem invertDir_invertDir (dir : Direction) : invertDir (invertDir dir) = dir := by
  cases dir <;> rfl

theorem exec_dinv {s : State} (hr : s.running) (dir : Direction) :
    exec (.dinv dir) s = .next (answered ((dir.code ^^^ 1#2).setWidth 64) s) := by
  rw [← code_invertDir]
  exact exec_eq_readout hr (by simp [Instr.mnemonic]) rfl

/-- Settles O26: the answer is the code of the inverse direction, which is the code with bit 0 flipped. -/
theorem dinvInvertsDirection : Obligations.DinvInvertsDirection :=
  ⟨fun dir _ hr => exec_dinv hr dir, fun dir => ⟨code_invertDir dir, invertDir_invertDir dir⟩, rfl,
    wordsOf_unusedZero (m := .dinv) (by decide), by decide, fun _ hr => exec_dinv hr .left⟩

end Sys2Proof.Machine
end

section
/-! The bounds family (spec/42_bounds.md R141 to R143): one axis of the edge test, where its answer stands in the
response, and EDGES. -/

open Sys2Proof.Claims

namespace Sys2Proof.Machine

/-! ## One axis -/

/-- R141: the edge of one axis that coordinate `c` touches on a rectangle with this side, the far edge winning. -/
def touchedEdge (far near : Direction) (c side : Coord) : Option Direction :=
  if c.toNat + 1 = side.toNat then some far else if c = 0 then some near else none

theorem horizontalEdge_eq_touchedEdge : horizontalEdge = touchedEdge .right .left := rfl

theorem verticalEdge_eq_touchedEdge : verticalEdge = touchedEdge .down .up := rfl

section TouchedEdge
variable {far near : Direction} {c side : Coord}

theorem touchedEdge_far (h : c.toNat + 1 = side.toNat) : touchedEdge far near c side = some far := if_pos h

/-- R143 (a): a coordinate at or beyond the side touches no edge. -/
theorem touchedEdge_outside (hs : side ≠ 0) (h : side.toNat ≤ c.toNat) : touchedEdge far near c side = none := by
  have hfar : ¬ c.toNat + 1 = side.toNat := by omega
  have hnear : c ≠ 0 := by bv_omega
  rw [touchedEdge, if_neg hfar, if_neg hnear]

/-- R143 (b): on a side of 1 coordinate 0 touches both edges, and the far one wins. -/
theorem touchedEdge_side_one : touchedEdge far near 0 1 = some far := touchedEdge_far rfl

/-- R143 (c): a coordinate at either end touches an edge. -/
theorem touchedEdge_isSome (h : c = 0 ∨ c.toNat + 1 = side.toNat) : (touchedEdge far near c side).isSome = true := by
  unfold touchedEdge
  split_ifs with hfar hnear
  · rfl
  · rfl
  · exact (h.elim hnear hfar).elim

/-- R143 (d): an axis answers one of its own two directions. -/
theorem eq_near_or_far_of_touchedEdge {dir : Direction} (h : touchedEdge far near c side = some dir) :
    dir = near ∨ dir = far := by
  unfold touchedEdge at h
  split_ifs at h
  · exact .inr (Option.some.inj h).symm
  · exact .inl (Option.some.inj h).symm

/-- On a non-zero side the far edge is at the side less one. -/
theorem far_iff_eq_side_sub_one (hs : side ≠ 0) : c.toNat + 1 = side.toNat ↔ c = side - 1 := by bv_omega

/-- R141: the three bits of one axis. -/
theorem edgeBits_touchedEdge (hs : side ≠ 0) : edgeBits (touchedEdge far near c side) =
    if c = side - 1 then 1#1 ++ far.code else if c = 0 then 1#1 ++ near.code else 0#3 := by
  simp only [touchedEdge, far_iff_eq_side_sub_one hs]
  split_ifs <;> rfl

end TouchedEdge

/-! ## The response data -/

/-- R141: the horizontal answer stands in [2:0]. -/
theorem extractLsb'_edgesData_horizontal (h v : Option Direction) : (edgesData h v).extractLsb' 0 3 = edgeBits h :=
  BitVec.extractLsb'_append_eq_right

/-- R141: the vertical answer stands in [6:4]. -/
theorem extractLsb'_edgesData_vertical (h v : Option Direction) : (edgesData h v).extractLsb' 4 3 = edgeBits v := by
  rw [edgesData, BitVec.extractLsb'_append_eq_of_le (by decide), BitVec.extractLsb'_append_eq_of_le (by decide)]
  exact BitVec.extractLsb'_append_eq_right

section Axis
variable {d : BitVec 64} {k : Nat} {e : Option Direction}

/-- R141: bit 2 of an axis's three bits says whether it has an answer. -/
theorem getLsbD_present (hd : d.extractLsb' k 3 = edgeBits e) : d.getLsbD (k + 2) = e.isSome := by
  have hbit : d.getLsbD (k + 2) = (edgeBits e).getLsbD 2 := by simp [← hd]
  rw [hbit]
  cases e with
  | none => rfl
  | some dir => cases dir <;> rfl

/-- R141: bits 1 and 0 of an axis's three bits are the code of its answer. -/
theorem extractLsb'_code {dir : Direction} (hd : d.extractLsb' k 3 = edgeBits (some dir)) :
    d.extractLsb' k 2 = dir.code := by
  have hlow : d.extractLsb' k 2 = (edgeBits (some dir)).extractLsb' 0 2 := by
    rw [← hd]
    ext i hi
    simp [Nat.lt_succ_of_lt hi]
  rw [hlow]
  cases dir <;> rfl

/-- R143 (d): an axis with an answer has the code of one of its own two directions. -/
theorem extractLsb'_code_of_present {far near : Direction} {c side : Coord}
    (hd : d.extractLsb' k 3 = edgeBits (touchedEdge far near c side)) (hp : d.getLsbD (k + 2) = true) :
    d.extractLsb' k 2 = near.code ∨ d.extractLsb' k 2 = far.code := by
  obtain ⟨dir, hdir⟩ := Option.isSome_iff_exists.mp ((getLsbD_present hd).symm.trans hp)
  have hcode := extractLsb'_code (hdir ▸ hd)
  obtain rfl | rfl := eq_near_or_far_of_touchedEdge hdir
  · exact .inl hcode
  · exact .inr hcode

end Axis

/-! ## EDGES -/

/-- R141: EDGES on a rectangle with both sides non-zero. -/
theorem exec_edges {s : State} (hr : s.running) (a : Pos) {width height : Coord} (hw : width ≠ 0) (hh : height ≠ 0) :
    exec (.edges a width height) s =
      .next (answered (edgesData (touchedEdge .right .left a.x width) (touchedEdge .down .up a.y height)) s) := by
  rw [← horizontalEdge_eq_touchedEdge, ← verticalEdge_eq_touchedEdge]
  exact exec_eq_readout hr (by simp [Instr.mnemonic]) (if_neg (not_or.mpr ⟨hw, hh⟩))

/-- R141: the data EDGES answers, axis by axis. -/
theorem exec_edges_axes {s : State} (hr : s.running) (a : Pos) {width height : Coord} (hw : width ≠ 0)
    (hh : height ≠ 0) : ∃ d : BitVec 64, exec (.edges a width height) s = .next (answered d s) ∧
      d.extractLsb' 0 3 = edgeBits (touchedEdge .right .left a.x width) ∧
      d.extractLsb' 4 3 = edgeBits (touchedEdge .down .up a.y height) :=
  ⟨_, exec_edges hr a hw hh, extractLsb'_edgesData_horizontal _ _, extractLsb'_edgesData_vertical _ _⟩

theorem exec_edges_badBounds {s : State} (hr : s.running) (a : Pos) {width height : Coord}
    (hz : width = 0 ∨ height = 0) :
    exec (.edges a width height) s = .next (latched 0x06 (encode (.edges a width height)) s) :=
  exec_of_faultOf (i := .edges a width height) (f := .badBounds) hr (if_pos hz)

/-- Settles O28: the far edge of a non-zero side is at the side less one, and a zero side is the command's fault. -/
theorem edgesReportTouchedEdges : Obligations.EdgesReportTouchedEdges := by
  refine ⟨fun a width height s hr hw hh => ?_, fun a width height s hr hz => exec_edges_badBounds hr a hz,
    wordsOf_unusedZero (m := .edges) (by decide), by decide,
    fun s hr => exec_edges hr ⟨0, 0⟩ (width := 10) (height := 10) (by decide) (by decide)⟩
  rw [exec_edges hr a hw hh, edgesData, edgeBits_touchedEdge hw, edgeBits_touchedEdge hh]
  rfl

/-- Settles O29: each clause is a fact of one axis, read at that axis's place in the response. -/
theorem edgesCornerCases : Obligations.EdgesCornerCases := by
  intro a width height s hr hw hh
  obtain ⟨d, hexec, hx, hy⟩ := exec_edges_axes hr a hw hh
  refine ⟨d, hexec, fun h => ?_, fun h => ?_, fun h1 h0 => ?_, fun h1 h0 => ?_, fun hcx hcy => ⟨?_, ?_⟩,
    extractLsb'_code_of_present hx, extractLsb'_code_of_present hy⟩
  · rw [hx, touchedEdge_outside hw h]
    rfl
  · rw [hy, touchedEdge_outside hh h]
    rfl
  · rw [hx, h1, h0, touchedEdge_side_one]
    rfl
  · rw [hy, h1, h0, touchedEdge_side_one]
    rfl
  · exact (getLsbD_present hx).trans (touchedEdge_isSome hcx)
  · exact (getLsbD_present hy).trans (touchedEdge_isSome hcy)

end Sys2Proof.Machine
end

section
/-! The composition family, the slot table, the accumulator and the reads (spec/43_compose.md R150, R152, R157, R158,
R160): what ADDSLOT and PUSH write, RENDER's exact index, the cell RDPIX reads and the map RDCSR reads. -/

open Sys2Proof.Claims

namespace Sys2Proof.Machine

/-! ## The exact index (R160) -/

/-- R12: a sum of coordinates without carry is exact. -/
theorem toNat_add_of_carry16_false {a b : Coord} (h : carry16 a b = false) : (a + b).toNat = a.toNat + b.toNat :=
  BitVec.toNat_add_of_lt (Nat.not_le.mp (of_decide_eq_false h))

/-- Settles O33: without a carry PADD's coordinates are the exact sums that the index is made of. -/
theorem renderTranslationIsExact : Obligations.RenderTranslationIsExact := by
  intro p off pos
  refine ⟨rfl, fun hx hy => ?_⟩
  have hx' : (addPos pos off).pos.x.toNat = pos.x.toNat + off.x.toNat := toNat_add_of_carry16_false hx
  have hy' : (addPos pos off).pos.y.toNat = pos.y.toNat + off.y.toNat := toNat_add_of_carry16_false hy
  rw [hx', hy', cellIndex]

/-! ## ADDSLOT (R150) -/

/-- R150: a free slot of the table gets the offset, and the others keep theirs. -/
theorem State.Inv.offAt_register {s : State} (h : s.Inv) (a : Pos) (hn : s.nreg ≠ s.params.nSlots) (k : Nat) :
    (s.register a).offAt k = if k = s.nreg then a else s.offAt k :=
  State.offAt_register a (h.offLength ▸ Nat.lt_of_le_of_ne h.nregBound hn) k

theorem exec_addslot_full {s : State} (hr : s.running) (a : Pos) (hn : s.nreg = s.params.nSlots) :
    exec (.addslot a) s = .next (latched 0x03 (encode (.addslot a)) s) :=
  exec_of_faultOf (i := .addslot a) (f := .slotTableFull) hr (if_pos hn)

/-- Settles O30: the new slot gets the offset, and the other slots keep theirs. -/
theorem addslotRegistersNextSlot : Obligations.AddslotRegistersNextSlot := by
  refine ⟨fun a s hinv hr hn => ?_, fun a s hr hn => exec_addslot_full hr a hn,
    wordsOf_unusedZero (m := .addslot) (by decide), by decide, by decide, _, rfl, rfl⟩
  have hoff := hinv.offAt_register a hn
  exact ⟨_, exec_addslot_free hr hn, rfl, (hoff s.nreg).trans (if_pos rfl), hinv.accUnregistered s.nreg le_rfl,
    fun k hk => (hoff k).trans (if_neg hk), rfl, rfl⟩

/-! ## PUSH (R152) -/

theorem exec_push_badSlot {s : State} (hr : s.running) {slot : BitVec 8} (a : Pos) (data : Color)
    (hs : s.nreg ≤ slot.toNat) :
    exec (.push slot a data) s = .next (latched 0x02 (encode (.push slot a data)) s) :=
  exec_of_faultOf (i := .push slot a data) (f := .badSlot) hr (if_pos hs)

theorem exec_push_overflow {s : State} (hr : s.running) {slot : BitVec 8} (a : Pos) (data : Color)
    (hs : slot.toNat < s.nreg) (hc : s.accCnt = s.params.accDepth) :
    exec (.push slot a data) s = .next (latched 0x04 (encode (.push slot a data)) s) :=
  exec_of_faultOf (i := .push slot a data) (f := .accOverflow) hr ((if_neg (Nat.not_le.mpr hs)).trans (if_pos hc))

/-- Settles O31: the slot's list gets the pixel, the others stay, and the count grows by one. -/
theorem pushAppendsOnePixel : Obligations.PushAppendsOnePixel := by
  refine ⟨fun slot a data s hinv hr hs hc => ?_, fun slot a data s hr hs => exec_push_badSlot hr a data hs,
    fun slot a data s hr hs hc => exec_push_overflow hr a data hs hc, wordsOf_unusedZero (m := .push) (by decide),
    by decide, _, rfl, rfl⟩
  have hlen := hinv.slot_lt_length hs
  have hacc := State.accAt_append (s := s) ⟨a, data⟩ hlen
  have hcnt := State.accCnt_append (s := s) ⟨a, data⟩ hlen
  refine ⟨_, exec_push_room hr hs hc, (hacc _).trans (if_pos rfl), fun k hk => (hacc k).trans (if_neg hk), hcnt, ?_,
    fun _ => rfl, rfl⟩
  rw [hcnt]
  rfl

/-! ## RDPIX (R157) -/

/-- R251: a cell that nothing wrote since reset reads RASTER_INIT. -/
theorem State.rasterAt_unwritten {s : State} {i : Nat} (h : s.raster.read? i = none) :
    s.rasterAt i = Config.rasterInit s.resets i := by
  rw [State.rasterAt, h, Option.getD_none]

theorem exec_rdpix_badIndex {s : State} (hr : s.running) {index : BitVec 32} (hi : s.params.nCells ≤ index.toNat) :
    exec (.rdpix index) s = .next (latched 0x05 (encode (.rdpix index)) s) :=
  exec_of_faultOf (i := .rdpix index) (f := .badIndex) hr (if_pos hi)

/-- Settles O35: the answer is the cell's reading, which is RASTER_INIT where nothing was written. -/
theorem rdpixReadsOneCell : Obligations.RdpixReadsOneCell := by
  refine ⟨fun index s hr hi => exec_rdpix_inRange hr hi, fun index s hr hi hnone => ?_,
    fun index s hr hi => exec_rdpix_badIndex hr hi, wordsOf_unusedZero (m := .rdpix) (by decide), by decide,
    _, rfl, rfl⟩
  rw [← State.rasterAt_unwritten hnone]
  exact exec_rdpix_inRange hr hi

/-! ## RDCSR (R158) -/

/-- R26, R30: the flags stand in bits 0 and 1 of STATUS. -/
theorem State.status_bits (s : State) :
    s.status.getLsbD 0 = s.statusFault ∧ s.status.getLsbD 1 = s.statusOob ∧ s.status.extractLsb' 2 30 = 0 := by
  unfold State.status
  cases s.statusFault <;> cases s.statusOob <;> decide

/-- R28, R30: CAUSE stands in the low byte of its CSR. -/
theorem State.csr_cause_bits (s : State) :
    (s.csr 0x02).extractLsb' 0 8 = s.cause ∧ (s.csr 0x02).extractLsb' 8 24 = 0 := by
  have hcsr : s.csr 0x02 = 0#24 ++ s.cause := BitVec.setWidth_eq_append (by decide)
  rw [hcsr]
  exact ⟨BitVec.extractLsb'_append_eq_right, BitVec.extractLsb'_append_eq_left⟩

/-- R22, R30: NREG is at most 128, so its CSR shows it whole. -/
theorem State.Inv.toNat_csr_nreg {s : State} (h : s.Inv) : (s.csr 0x03).toNat = s.nreg := by
  have hlt : s.nreg < 2 ^ 8 := Nat.lt_of_le_of_lt (h.nregBound.trans s.params.nSlots_le) (by decide)
  exact (BitVec.toNat_setWidth_of_le (by decide)).trans ((BitVec.toNat_ofNat _ _).trans (Nat.mod_eq_of_lt hlt))

/-- R23, R30: ACCCNT is at most ACC_DEPTH, so its CSR shows it whole. -/
theorem State.Inv.toNat_csr_accCnt {s : State} (h : s.Inv) : (s.csr 0x04).toNat = s.accCnt :=
  (BitVec.toNat_ofNat _ _).trans (Nat.mod_eq_of_lt (Nat.lt_of_le_of_lt h.accBound s.params.accDepth_lt))

/-- R30: above the named registers the map holds the offsets from 0x80 on, and 0 elsewhere. -/
theorem State.csr_above_named (s : State) {n : BitVec 8} (h : 0x0D ≤ n.toNat) : s.csr n =
    if 0x80 ≤ n.toNat ∧ n.toNat - 0x80 < s.params.nSlots then offsetWord (s.offAt (n.toNat - 0x80)) else 0 := by
  unfold State.csr
  split
  case h_14 => rfl
  all_goals exact absurd h (by decide)

theorem State.csr_offset (s : State) {n : BitVec 8} {k : Nat} (hk : k < s.params.nSlots) (hn : n.toNat = 0x80 + k) :
    s.csr n = offsetWord (s.offAt k) := by
  have hsub : n.toNat - 0x80 = k := by omega
  rw [s.csr_above_named (by omega), hsub, if_pos ⟨by omega, hk⟩]

/-- R29: an unimplemented number reads 0. -/
theorem State.csr_unimplemented (s : State) {n : BitVec 8} (h : 0x0D ≤ n.toNat)
    (hn : n.toNat < 0x80 ∨ 0x80 + s.params.nSlots ≤ n.toNat) : s.csr n = 0 := by
  rw [s.csr_above_named h, if_neg (by omega)]

/-- R30: x stands in the low half of an offset register and y in the high half. -/
theorem offsetWord_halves (v : Pos) :
    (offsetWord v).extractLsb' 0 16 = v.x ∧ (offsetWord v).extractLsb' 16 16 = v.y :=
  ⟨BitVec.extractLsb'_append_eq_right, BitVec.extractLsb'_append_eq_left⟩

/-- Settles O36: RDCSR answers the CSR's value in every state, and each row of the map says what that is. -/
theorem rdcsrReadsTheCsrMap : Obligations.RdcsrReadsTheCsrMap := by
  refine ⟨fun n s => ⟨s.csr n, exec_rdcsr n s, ?_, ?_, ?_, ?_, ?_, ?_, ?_, ?_, ?_, ?_, ?_, ?_, ?_, ?_, ?_, ?_⟩,
    wordsOf_unusedZero (m := .rdcsr) (by decide), by decide, by decide, _, rfl, rfl⟩
  · rintro rfl; rfl
  · rintro rfl; exact s.status_bits
  · rintro rfl; exact s.csr_cause_bits
  · rintro rfl hinv; exact hinv.toNat_csr_nreg
  · rintro rfl hinv; exact hinv.toNat_csr_accCnt
  · rintro rfl; exact s.toNat_csr_width
  · rintro rfl; exact s.toNat_csr_height
  · rintro rfl; exact s.toNat_csr_nSlots
  · rintro rfl; exact s.toNat_csr_accDepth
  · rintro rfl; rfl
  · rintro rfl; rfl
  · rintro rfl; rfl
  · rintro rfl; rfl
  · intro k hk hn
    rw [s.csr_offset hk hn]
    exact offsetWord_halves _
  · exact fun h hn => s.csr_unimplemented h (.inl hn)
  · exact fun hn => s.csr_unimplemented (by omega) (.inr hn)

end Sys2Proof.Machine
end

section
/-! The composition family, RENDER and the document's scene (spec/43_compose.md R154 to R156, R159, R161): what a cell
reads after RENDER, its counts, and the PUSHes that hand each slot its component's pixels. -/

open Sys2Proof.Claims

namespace Sys2Proof.Machine

/-! ## RENDER (R154 to R156) -/

/-- R154: after RENDER a cell reads the last write to it that was in range, or what it read before. -/
theorem rasterAt_render {s t : State} (hr : s.running) (ht : exec .render s = .next t) (i : Nat) :
    t.rasterAt i = (lastWrite i (inRange s)).getD (s.rasterAt i) := by
  obtain rfl := Host.Outcome.next.inj ((exec_render_running hr).symm.trans ht)
  have hread : s.arbitrate.raster.read? i = (lastWrite i (inRange s)).or (s.raster.read? i) := s.arbitrate_read? i
  simp only [State.rasterAt, State.respond_raster, State.emptyAcc_raster, hread, Option.getD_or]
  rfl

/-- R51, R154: only a cell below NCELLS can be written by RENDER. -/
theorem rasterAt_render_of_writesOf {s t : State} (hr : s.running) (ht : exec .render s = .next t) (i : Nat) :
    t.rasterAt i = if i < s.params.nCells then (lastWrite i (writesOf s)).getD (s.rasterAt i) else s.rasterAt i := by
  have hlast : lastWrite i (inRange s) = if i < s.params.nCells then lastWrite i (writesOf s) else none :=
    lastWrite_inRange i _ _
  rw [rasterAt_render hr ht, hlast]
  split <;> rfl

/-- R155: the writes in range and the dropped ones are all writes. -/
theorem length_inRange_add_outOfRange (s : State) :
    (inRange s).length + (outOfRange s).length = (writesOf s).length := by
  simp only [inRange, outOfRange, ← Nat.not_lt, decide_not]
  exact (List.length_eq_length_filter_add _).symm

/-- R23, R154: a RENDER has as many writes as the accumulator holds pixels. -/
theorem State.Inv.length_writesOf {s : State} (h : s.Inv) : (writesOf s).length = s.accCnt :=
  s.length_renderWrites.trans (State.accCnt_eq_sum_range (h.accLength ▸ h.nregBound) h.accUnregistered).symm

/-- R155: OOB is set exactly by a dropped write. -/
theorem oobAfter_dropped (s : State) :
    oobAfter s.statusOob s.arbitrate.dropped = (s.statusOob || decide (outOfRange s ≠ [])) := by
  have hdropped : s.arbitrate.dropped = (outOfRange s).length := s.arbitrate_counts.2
  rw [oobAfter, hdropped, decide_eq_decide.mpr List.length_pos_iff]

/-- R154: the answer counts the writes dropped and the cells written. -/
theorem arbitrate_data (s : State) :
    s.arbitrate.data = BitVec.ofNat 32 (outOfRange s).length ++ BitVec.ofNat 32 (inRange s).length := by
  obtain ⟨hwritten, hdropped⟩ := s.arbitrate_counts
  rw [Arbiter.data, hwritten, hdropped]
  rfl

/-- Settles O32: the writes in range land in their order, and the counts are those of the two kinds of writes. -/
theorem renderWritesInOrderAndEmpties : Obligations.RenderWritesInOrderAndEmpties := by
  refine ⟨fun s hinv hr => ?_, wordsOf_unusedZero (m := .render) (by decide), by decide, _, rfl, rfl, rfl, rfl⟩
  have ht := exec_render_running hr
  refine ⟨_, ht, rasterAt_render hr ht, State.accAt_emptyAcc _, State.accCnt_emptyAcc _, oobAfter_dropped s, ?_,
    (length_inRange_add_outOfRange s).trans hinv.length_writesOf, hinv.length_writesOf.trans_le hinv.accBound, rfl⟩
  rw [← arbitrate_data]
  rfl

/-- R23: an accumulator that counts no pixel holds none. -/
theorem State.accAt_of_accCnt_zero {s : State} (h : s.accCnt = 0) (k : Nat) : s.accAt k = [] := by
  unfold State.accAt
  cases hk : s.acc[k]? with
  | none => rfl
  | some l =>
    have hlen := List.le_sum_of_mem (List.mem_map_of_mem (f := List.length) (List.mem_of_getElem? hk))
    exact List.length_eq_zero_iff.mp (Nat.le_zero.mp (h ▸ hlen))

/-! ## A scene's PUSHes (R159, R182) -/

/-- R159: a running block with an empty accumulator, where the (component, offset) pairs of `sc` are registered slot by
slot and nothing else is: what a frame of `sc` starts from. -/
structure Scene.ReadyIn (sc : Scene) (s : State) : Prop where
  inv : s.Inv
  running : s.running
  empty : s.accCnt = 0
  count : s.nreg = sc.children.length
  slots : ∀ k c, sc.children[k]? = some c → c.slot.toNat = k ∧ c.offset = s.offAt k

/-- R182: the slot and the pixel of every PUSH of one component, in order. -/
def Child.pushes (c : Child) : List (BitVec 8 × Pixel) := c.component.render.map fun px => (c.slot, px)

/-- R183 (1): the slot and the pixel of every PUSH of a frame, in order. -/
def Scene.pushes (sc : Scene) : List (BitVec 8 × Pixel) := sc.children.flatMap Child.pushes

/-- R159: a sequence of PUSHes that hands each slot its component's pixels in order, and no other slot anything. -/
structure Scene.HandedBy (sc : Scene) (qs : List (BitVec 8 × Pixel)) : Prop where
  slots : ∀ q ∈ qs, ∃ c ∈ sc.children, c.slot = q.1
  pixels : ∀ c ∈ sc.children, (qs.filter fun q => q.1 == c.slot).map Prod.snd = c.component.render

theorem Scene.map_pushOf_pushes (sc : Scene) : sc.pushes.map pushOf = sc.pushCommands := by
  simp only [Scene.pushes, Scene.pushCommands, Child.pushes, List.map_flatMap, List.map_map]
  rfl

theorem Scene.length_pushes (sc : Scene) (p : Params) : sc.pushes.length = (sc.documentWrites p).length := by
  simp only [Scene.pushes, Scene.documentWrites, Child.pushes, List.length_flatMap, List.length_map]

theorem Child.slot_of_mem_pushes {c : Child} {q : BitVec 8 × Pixel} (h : q ∈ c.pushes) : q.1 = c.slot := by
  obtain ⟨px, -, rfl⟩ := List.mem_map.mp h
  rfl

/-- Among the PUSHes of components in different slots, those to one slot are its component's. -/
theorem filter_slot_flatMap_pushes {cs : List Child} (hd : (cs.map Child.slot).Nodup) {c : Child} (hc : c ∈ cs) :
    ((cs.flatMap Child.pushes).filter fun q => q.1 == c.slot) = c.pushes := by
  induction cs with
  | nil => cases hc
  | cons d cs ih =>
    obtain ⟨hnotin, hd'⟩ := List.nodup_cons.mp hd
    rw [List.flatMap_cons, List.filter_append]
    obtain rfl | hc := List.mem_cons.mp hc
    · have hown : (c.pushes.filter fun q => q.1 == c.slot) = c.pushes :=
        List.filter_eq_self.mpr fun q hq => beq_iff_eq.mpr (Child.slot_of_mem_pushes hq)
      have hothers : ((cs.flatMap Child.pushes).filter fun q => q.1 == c.slot) = [] := by
        refine List.filter_eq_nil_iff.mpr fun q hq heq => hnotin ?_
        obtain ⟨e, he, hqe⟩ := List.mem_flatMap.mp hq
        rw [← beq_iff_eq.mp heq, Child.slot_of_mem_pushes hqe]
        exact List.mem_map_of_mem he
      rw [hown, hothers, List.append_nil]
    · have hfirst : (d.pushes.filter fun q => q.1 == c.slot) = [] := by
        refine List.filter_eq_nil_iff.mpr fun q hq heq => hnotin ?_
        rw [← Child.slot_of_mem_pushes hq, beq_iff_eq.mp heq]
        exact List.mem_map_of_mem hc
      rw [hfirst, List.nil_append, ih hd' hc]

/-- PUSHes to one slot are told apart by their pixels alone. -/
theorem filter_slot_eq_map (qs : List (BitVec 8 × Pixel)) (k : BitVec 8) :
    (qs.filter fun q => q.1 == k) = ((qs.filter fun q => q.1 == k).map Prod.snd).map (Prod.mk k) := by
  rw [List.map_map]
  refine (List.map_id _).symm.trans (List.map_congr_left fun q hq => ?_)
  have hslot : q.1 = k := beq_iff_eq.mp (List.mem_filter.mp hq).2
  exact Prod.ext hslot rfl

/-- Two sequences that hand each slot its component's pixels give each slot the same PUSHes. -/
theorem Scene.HandedBy.filter_slot_eq {sc : Scene} {ps qs : List (BitVec 8 × Pixel)} (hp : sc.HandedBy ps)
    (hq : sc.HandedBy qs) (k : BitVec 8) : (ps.filter fun p => p.1 == k) = qs.filter fun q => q.1 == k := by
  by_cases hk : ∃ c ∈ sc.children, c.slot = k
  · obtain ⟨c, hc, rfl⟩ := hk
    rw [filter_slot_eq_map ps, filter_slot_eq_map qs, hp.pixels c hc, hq.pixels c hc]
  · have hnil {l : List (BitVec 8 × Pixel)} (hl : sc.HandedBy l) : (l.filter fun q => q.1 == k) = [] :=
      List.filter_eq_nil_iff.mpr fun q hq heq => hk (beq_iff_eq.mp heq ▸ hl.slots q hq)
    rw [hnil hp, hnil hq]

section Ready
variable {sc : Scene} {s : State} (h : sc.ReadyIn s)
include h

theorem Scene.ReadyIn.nodup : (sc.children.map Child.slot).Nodup := by
  refine List.nodup_iff_injective_getElem.mpr fun i j hij => Fin.ext ?_
  have hslot (k : Fin (sc.children.map Child.slot).length) : (sc.children.map Child.slot)[k].toNat = k := by
    obtain ⟨k, hk⟩ := k
    rw [List.length_map] at hk
    simpa using (h.slots k sc.children[k] (List.getElem?_eq_getElem hk)).1
  exact (hslot i).symm.trans ((congrArg BitVec.toNat hij).trans (hslot j))

/-- The scene's own PUSHes hand each slot its component's pixels. -/
theorem Scene.ReadyIn.handedBy_pushes : sc.HandedBy sc.pushes where
  slots q hq := by
    obtain ⟨c, hc, hqc⟩ := List.mem_flatMap.mp hq
    exact ⟨c, hc, (Child.slot_of_mem_pushes hqc).symm⟩
  pixels c hc := by
    rw [Scene.pushes, filter_slot_flatMap_pushes h.nodup hc, Child.pushes, List.map_map]
    exact List.map_id _

theorem Scene.ReadyIn.slot_lt {c : Child} (hc : c ∈ sc.children) : c.slot.toNat < s.nreg := by
  obtain ⟨k, hk⟩ := List.mem_iff_getElem?.mp hc
  rw [(h.slots k c hk).1, h.count]
  exact (List.getElem?_eq_some_iff.mp hk).1

/-- R159: when the scene's pixels fit the accumulator the block takes its PUSHes. -/
theorem Scene.ReadyIn.admits (hfit : (sc.documentWrites s.params).length ≤ s.params.accDepth) :
    s.Admits sc.pushes where
  inv := h.inv
  running := h.running
  registered q hq := by
    obtain ⟨c, hc, heq⟩ := h.handedBy_pushes.slots q hq
    exact heq ▸ h.slot_lt hc
  room := by rwa [h.empty, Nat.zero_add, sc.length_pushes s.params]

/-- R159: after the scene's PUSHes the writes of RENDER are those of the document's single loop, in its order. -/
theorem Scene.ReadyIn.writesOf_pushed (ha : s.Admits sc.pushes) :
    writesOf (s.pushed sc.pushes) = sc.documentWrites s.params := by
  refine congrArg List.flatten (List.ext_getElem (by simp [State.pushed, h.count]) fun k hk hk' => ?_)
  rw [List.length_map] at hk'
  obtain ⟨hslot, hoff⟩ := h.slots k _ (List.getElem?_eq_getElem hk')
  have hacc : (s.pushed sc.pushes).accAt k = sc.children[k].component.render := by
    have := State.accAt_pushed ha sc.children[k].slot
    rwa [hslot, State.accAt_of_accCnt_zero h.empty, List.nil_append,
      h.handedBy_pushes.pixels _ (List.getElem_mem hk')] at this
  rw [List.getElem_map, List.getElem_map, List.getElem_range, hacc, hoff]
  rfl

end Ready

/-- R154: what a cell reads after a run of PUSHes and a RENDER. -/
theorem run_pushes_render_rasterAt {s : State} {ps : List (BitVec 8 × Pixel)} (ha : s.Admits ps) :
    ∃ t, Sys2Proof.core.run (ps.length + 1) (s.present (ps.map pushOf ++ [.render])) = .next t ∧
      ∀ i, t.rasterAt i = if i < s.params.nCells then (lastWrite i (writesOf (s.pushed ps))).getD (s.rasterAt i)
        else s.rasterAt i := by
  obtain ⟨o, ho⟩ := run_pushes_render ha
  obtain ⟨t, ht⟩ := exec_total .render { s.pushed ps with output := o }
  exact ⟨t, ho.trans ht, rasterAt_render_of_writesOf (s := { s.pushed ps with output := o }) ha.running ht⟩

/-- Settles O50: the scene's PUSHes leave the writes of the document's loop, and every sequence that hands each slot its
pixels is another interleaving of them. -/
theorem frameRendersTheDocumentScene : Obligations.FrameRendersTheDocumentScene := by
  intro s sc hinv hr hempty hcount hslots hfit
  have hready : sc.ReadyIn s := ⟨hinv, hr, hempty, hcount, hslots⟩
  have ha := hready.admits hfit
  obtain ⟨t, ht, hread⟩ := run_pushes_render_rasterAt ha
  rw [hready.writesOf_pushed ha] at hread
  refine ⟨t, ?_, hread, fun qs hq hpixels => ?_⟩
  · rwa [← sc.map_pushOf_pushes, List.length_map]
  · obtain ⟨t', u, ht', hu, heq, -⟩ := interleavingOfPushesIsFree s sc.pushes qs hinv hr ha.registered ha.room
      (hready.handedBy_pushes.filter_slot_eq ⟨hq, hpixels⟩)
    obtain rfl := Host.Outcome.next.inj (ht.symm.trans ht')
    exact ⟨u, hu, fun i => (State.rasterAt_congr (congrArg State.raster heq) (congrArg State.resets heq) i).symm⟩

/-! ## Two one-pixel components (R161) -/

/-- R23: with no slot registered the accumulator is empty. -/
theorem State.Inv.accCnt_of_nreg_zero {s : State} (h : s.Inv) (hn : s.nreg = 0) : s.accCnt = 0 := by
  rw [State.accCnt_eq_sum_range (h.accLength ▸ h.nregBound) h.accUnregistered, hn]
  rfl

theorem Scene.readyIn_nil {s : State} (hinv : s.Inv) (hr : s.running) (hn : s.nreg = 0) (ticks : Nat) :
    Scene.ReadyIn ⟨[], ticks⟩ s :=
  ⟨hinv, hr, hinv.accCnt_of_nreg_zero hn, hn, by simp⟩

section Register
variable {cs : List Child} {ticks : Nat} {s : State} {c : Child}

/-- R150, R181: a component in the next slot joins the others. -/
theorem Scene.ReadyIn.register (h : Scene.ReadyIn ⟨cs, ticks⟩ s) (hn : s.nreg ≠ s.params.nSlots)
    (hc : c.slot.toNat = s.nreg) (d : BitVec 64) :
    Scene.ReadyIn ⟨cs ++ [c], ticks⟩ ((s.register c.offset).respond d) where
  inv := (h.inv.register c.offset hn).respond d
  running := h.running
  empty := h.empty
  count := by simp [h.count]
  slots k e hk := by
    have hoff : ((s.register c.offset).respond d).offAt k = if k = s.nreg then c.offset else s.offAt k :=
      h.inv.offAt_register c.offset hn k
    have hlen : s.nreg = cs.length := h.count
    rw [hoff]
    obtain hlt | hge := Nat.lt_or_ge k cs.length
    · rw [if_neg (by omega)]
      exact h.slots k e (by rwa [List.getElem?_append_left hlt] at hk)
    · obtain ⟨rfl, rfl⟩ : k = cs.length ∧ c = e := by
        rw [List.getElem?_append_right hge, List.getElem?_singleton] at hk
        split_ifs at hk with hk0
        exact ⟨by omega, Option.some.inj hk⟩
      exact ⟨hc.trans hlen, (if_pos hlen.symm).symm⟩

/-- R150: one ADDSLOT of the commands presented, where a slot is free. -/
theorem Scene.ReadyIn.run_addslot (h : Scene.ReadyIn ⟨cs, ticks⟩ s) (hn : cs.length < s.params.nSlots)
    (hc : c.slot.toNat = cs.length) : ∃ t, t.params = s.params ∧ Scene.ReadyIn ⟨cs ++ [c], ticks⟩ t ∧
      ∀ is n, Sys2Proof.core.run (n + 1) (s.present (.addslot c.offset :: is)) =
        Sys2Proof.core.run n (t.present is) := by
  have hlen : s.nreg = cs.length := h.count
  have hfree : s.nreg ≠ s.params.nSlots := hlen ▸ hn.ne
  refine ⟨(s.register c.offset).respond (BitVec.ofNat 64 s.nreg), rfl, h.register hfree (hc.trans hlen.symm) _,
    fun is n => ?_⟩
  exact run_next ((step_present (decodeInvertsEncode (.addslot c.offset) rfl) is s).trans
    (exec_addslot_free (s := s.present is) h.running hfree))

end Register

/-- R161: a component of one pixel, which is what a Breather renders (R187). -/
def onePixelChild (slot : BitVec 8) (offset pos : Pos) (color : Color) : Child :=
  ⟨newBreather ⟨pos, color⟩ .alpha .up, offset, slot⟩

/-- R159: a scene of two one-pixel components has two writes. -/
theorem documentWrites_onePixelChild_pair (p : Params) (k0 k1 : BitVec 8) (o0 o1 p0 p1 : Pos) (c0 c1 : Color)
    (ticks : Nat) :
    Scene.documentWrites p ⟨[onePixelChild k0 o0 p0 c0, onePixelChild k1 o1 p1 c1], ticks⟩ =
      [(cellIndex p o0 p0, c0), (cellIndex p o1 p1, c1)] := rfl

/-- Settles O48: the two components are a scene whose two writes go to different cells in range. -/
theorem twoInstancesLandAtTheirOffsets : Obligations.TwoInstancesLandAtTheirOffsets := by
  intro s o0 o1 p0 p1 c0 c1 hinv hr hn hslots hdepth h0 h1 hne
  obtain ⟨s1, hp1, hready1, hrun1⟩ := (Scene.readyIn_nil hinv hr hn 0).run_addslot (c := onePixelChild 0 o0 p0 c0)
    (Nat.zero_lt_of_lt hslots) rfl
  obtain ⟨s2, hp2, hready2, hrun2⟩ := hready1.run_addslot (c := onePixelChild 1 o1 p1 c1) (hp1 ▸ hslots) rfl
  have hp : s2.params = s.params := hp2.trans hp1
  obtain ⟨t, ht, hread, -⟩ := frameRendersTheDocumentScene s2 _ hready2.inv hready2.running hready2.empty
    hready2.count hready2.slots (hp ▸ hdepth)
  rw [hp, List.nil_append, List.singleton_append, documentWrites_onePixelChild_pair] at hread
  refine ⟨t, (hrun1 _ 4).trans ((hrun2 _ 3).trans ht), ?_, ?_⟩
  · rw [hread, if_pos h0]
    simp [lastWrite, cellIndex, hne.symm]
  · rw [hread, if_pos h1]
    simp [lastWrite, cellIndex]

end Sys2Proof.Machine
end

section
/-! The pixel sources (spec/44_pixel_sources.md R187, R188, R191 to R193, R195 to R197): one tick of a Breather, of a
FallingSand and of a Laser. -/

open Sys2Proof.Claims

namespace Sys2Proof.Machine

/-! ## Breather (R187, R188) -/

/-- R187: Up steps the value up and Down steps it down, saturating. -/
theorem toNat_apply_breatheFn (dir : Direction) (v : ChannelValue) :
    ((breatheFn dir).apply v).toNat = if dir = .up then min 255 (v.toNat + 1) else v.toNat - 1 := by
  unfold breatheFn
  split
  · exact MapFn.toNat_apply_inc v
  · exact MapFn.toNat_apply_dec v

/-- R187: the bounds of a channel value. -/
theorem toNat_bound_iff (v : ChannelValue) : v.toNat = 0 ∨ v.toNat = 255 ↔ v = 0 ∨ v = 255 := by bv_omega

/-- Settles O54: the tick is a channel write of the stepped value, so the other slices stay, and the direction flips by
the value written. -/
theorem breatherStepsAndFlips : Obligations.BreatherStepsAndFlips := by
  refine ⟨fun px ch dir order => ⟨mapChannel px.color ch (breatheFn dir).apply, _, rfl, ?_, ?_, ?_⟩, by decide⟩
  · rw [mapChannel, slice_setChannel_same, getChannel_eq_slice, toNat_apply_breatheFn]
  · exact fun ch' h => slice_setChannel_of_ne _ _ h
  · simp only [getChannel_eq_slice, toNat_bound_iff]

/-! ## FallingSand (R191 to R193) -/

/-- Looking up every index of a list in turn gives the list. -/
theorem filterMap_getElem?_range {α : Type} (l : List α) : ((List.range l.length).filterMap fun k => l[k]?) = l := by
  induction l with
  | nil => rfl
  | cons a l ih =>
    rw [List.length_cons, List.range_succ_eq_map, List.filterMap_cons, List.filterMap_map]
    exact congrArg (List.cons a) ih

/-- The grains in the order of a shuffle are the grains, each once. -/
theorem shuffled_perm {old : List Pos} {order : List Nat} (h : order.Perm (List.range old.length)) :
    (order.filterMap fun k => old[k]?).Perm old :=
  (h.filterMap _).trans (.of_eq (filterMap_getElem?_range old))

/-- R191: every grain is moved once, so no grain is created or destroyed. -/
theorem length_moveGrains {claim : Bool} {width height : Coord} {old : List Pos} {order : List Nat}
    (h : order.Perm (List.range old.length)) : (moveGrains claim width height old order).length = old.length := by
  have hfold (gs new : List Pos) :
      (gs.foldl (fun new g => new ++ [moveGrain claim width height old new g]) new).length =
        new.length + gs.length := by
    induction gs generalizing new with
    | nil => rfl
    | cons g gs ih => simp [ih]; omega
  rw [moveGrains, hfold, List.length_nil, Nat.zero_add, (shuffled_perm h).length_eq]

section Grain
variable {claim : Bool} {width height : Coord} {old new : List Pos} {g : Pos}

/-- R191, R192: a cell of the domain where no grain stands or, under the claim check, has gone. -/
theorem sandAvailable_iff {c : Pos} : sandAvailable claim width height old new c = true ↔
    c.x.toNat < width.toNat ∧ c.y.toNat < height.toNat ∧ c ∉ old ∧ (claim = true → c ∉ new) := by
  cases claim <;> simp [sandAvailable, and_assoc]

/-- R191: a grain goes to an available cell or stays. -/
theorem moveGrain_cases (claim : Bool) (width height : Coord) (old new : List Pos) (g : Pos) :
    moveGrain claim width height old new g = g ∨
      sandAvailable claim width height old new (moveGrain claim width height old new g) = true := by
  unfold moveGrain
  cases h : (sandCandidates g).find? (sandAvailable claim width height old new) with
  | none => exact .inl rfl
  | some c => exact .inr (List.find?_some h)

/-- R191: straight down is the first candidate. -/
theorem moveGrain_down (h : sandAvailable claim width height old new ⟨g.x, g.y + 1⟩ = true) :
    moveGrain claim width height old new g = ⟨g.x, g.y + 1⟩ :=
  congrArg (·.getD g) (List.find?_cons_of_pos h)

/-- R193: a single grain above the last row of its domain finds the cell below it free. -/
theorem sandAvailable_down_single (hx : g.x.toNat < width.toNat) (hy : g.y.toNat + 1 < height.toNat) :
    sandAvailable claim width height [g] [] ⟨g.x, g.y + 1⟩ = true := by
  refine sandAvailable_iff.mpr ⟨hx, ?_, ?_, by simp⟩
  · show (g.y + 1).toNat < height.toNat
    bv_omega
  · rw [List.mem_singleton]
    intro heq
    have hself : g.y + 1 = g.y := congrArg Pos.y heq
    bv_omega

/-- R192: under the claim check a moved grain meets neither one moved before nor one still to be moved. -/
theorem nodup_moveGrain {gs : List Pos} (hnodup : (new ++ g :: gs).Nodup) (hsub : gs ⊆ old) :
    (new ++ [moveGrain true width height old new g] ++ gs).Nodup := by
  obtain hstay | hmove := moveGrain_cases true width height old new g
  · rwa [hstay, List.append_assoc]
  · obtain ⟨-, -, hold, hnew⟩ := sandAvailable_iff.mp hmove
    rw [List.append_assoc, List.singleton_append, List.nodup_middle, List.nodup_cons, List.mem_append]
    exact ⟨not_or.mpr ⟨hnew rfl, fun h => hold (hsub h)⟩, (List.nodup_cons.mp (List.nodup_middle.mp hnodup)).2⟩

end Grain

/-- Settles O55: one move per grain of the shuffle, and the cell below a single grain is available. -/
theorem sandGrainsAreConserved : Obligations.SandGrainsAreConserved := by
  refine ⟨fun claim width height old order h => length_moveGrains h, fun claim width height g hx hy => ?_,
    fun claim width height color old order h => ⟨_, length_moveGrains h, if_pos ((isShuffle_iff _ _).mpr h)⟩⟩
  exact congrArg (fun p => [p]) (moveGrain_down (sandAvailable_down_single hx hy))

/-- R192: moving the grains `gs` one by one keeps them apart from each other and from those moved before. -/
theorem nodup_foldl_moveGrain {width height : Coord} {old gs new : List Pos} (hnodup : (new ++ gs).Nodup)
    (hsub : gs ⊆ old) : (gs.foldl (fun new g => new ++ [moveGrain true width height old new g]) new).Nodup := by
  induction gs generalizing new with
  | nil => rwa [List.append_nil] at hnodup
  | cons g gs ih =>
    have hrest := (List.cons_subset.mp hsub).2
    exact ih (nodup_moveGrain hnodup hrest) hrest

/-- Settles O57, by induction on the grains in the order of the shuffle, which are distinct. -/
theorem sandClaimCheckKeepsGrainsDistinct : Obligations.SandClaimCheckKeepsGrainsDistinct := by
  intro width height old order hnodup horder
  have hperm := shuffled_perm horder
  exact nodup_foldl_moveGrain (hperm.nodup_iff.mpr hnodup) hperm.subset

/-! ## Laser (R195 to R197) -/

/-- R196: the trail grows by the new head up to its capacity. -/
theorem length_pushTrail {trail : List Pos} (h : trail.length ≤ 10) (head : Pos) :
    (pushTrail trail head).length = min (trail.length + 1) 10 := by
  simp only [pushTrail, trailCap, apply_ite List.length, List.length_tail, List.length_append, List.length_singleton]
  split <;> omega

/-- R196: in a rectangle with non-zero sides a Laser with a trail has a tick. -/
theorem tickLaser_of_ne_nil {width height : Coord} {trail : List Pos} (hw : width ≠ 0) (hh : height ≠ 0)
    (ht : trail ≠ []) (lh lv : Direction) (color : Color) :
    ∃ head lh' lv', tickLaser width height trail lh lv color =
      some (.laser width height (pushTrail trail head) lh' lv' color) := by
  simp only [tickLaser, List.getLast?_eq_some_getLast ht, hw, hh, or_self, if_false]
  exact ⟨_, _, _, rfl⟩

/-- Settles O58, by induction on the ticks: each appends a head, and a trail has at least one position to start from. -/
theorem laserTrailGrowsToTen : Obligations.LaserTrailGrowsToTen := by
  refine ⟨fun width height color n hw hh => ?_, fun color => rfl⟩
  induction n with
  | zero => exact ⟨_, _, _, rfl, rfl⟩
  | succ n ih =>
    obtain ⟨trail, lh, lv, hafter, hlen⟩ := ih
    have hne : trail ≠ [] := List.ne_nil_of_length_pos (by omega)
    obtain ⟨head, lh', lv', htick⟩ := tickLaser_of_ne_nil hw hh hne lh lv color
    refine ⟨pushTrail trail head, lh', lv', ?_, ?_⟩
    · rw [laserAfter, hafter]
      exact htick
    · rw [length_pushTrail (by omega), hlen]
      omega

end Sys2Proof.Machine
end

section
/-! The frame loop (spec/44_pixel_sources.md R181, R183; spec/43_compose.md R156): registering the components of a
scene, and any number of frames of it. -/

open Sys2Proof.Claims

namespace Sys2Proof

/-- R7: every cell index fits RDPIX's operand. -/
theorem Params.nCells_lt (p : Params) : p.nCells < 2 ^ 32 :=
  (Nat.mul_lt_mul'' p.width.isLt p.height.isLt).trans_eq rfl

namespace Machine

/-! ## Registration (R181) -/

/-- R82, R150: the low byte of ADDSLOT's response is the slot number. -/
theorem extractLsb'_responseWord_ofNat (st : BitVec 8) (n : Nat) :
    (responseWord st (BitVec.ofNat 64 n)).extractLsb' 0 8 = BitVec.ofNat 8 n := by
  rw [responseWord, BitVec.extractLsb'_append_eq_of_add_le (by decide), ← BitVec.setWidth_eq_extractLsb' (by decide),
    BitVec.setWidth_ofNat_of_le (by decide)]

/-- R150: the block after an ADDSLOT in a free slot. -/
def State.addedSlot (offset : Pos) (s : State) : State := (s.register offset).respond (BitVec.ofNat 64 s.nreg)

/-- R150: the ADDSLOT of the first of the commands presented, where a slot is free. -/
theorem step_present_addslot {s : State} (hr : s.running) (hn : s.nreg ≠ s.params.nSlots) (offset : Pos)
    (is : List Instr) :
    step (s.present (.addslot offset :: is)) = .next ((s.addedSlot offset).present is) :=
  (step_present (decodeInvertsEncode (.addslot offset) rfl) is s).trans
    (exec_addslot_free (s := s.present is) hr hn)

/-- R181: a component registered in a free slot gets the number of registered slots as its slot number. -/
theorem registerChildren_cons {s : State} (hr : s.running) (hn : s.nreg ≠ s.params.nSlots) (c : Component)
    (offset : Pos) (rest : List (Component × Pos)) :
    registerChildren ((c, offset) :: rest) s =
      (registerChildren rest (s.addedSlot offset)).map
        fun p => (⟨c, offset, BitVec.ofNat 8 s.nreg⟩ :: p.1, p.2) := by
  have hissue := State.issue_of_step (step_present_addslot hr hn offset []) (State.getLast?_output_respond _ _)
  simp only [registerChildren, hissue, responseWord_status, extractLsb'_responseWord_ofNat, if_true]
  rfl

/-- R181: registering `children` after the components `cs`: the new ones take the next slots in their order, and the run
of their ADDSLOTs does the same. -/
theorem Scene.ReadyIn.registerChildren {cs : List Child} {ticks : Nat} {s : State}
    (h : Scene.ReadyIn ⟨cs, ticks⟩ s) {children : List (Component × Pos)}
    (hn : cs.length + children.length ≤ s.params.nSlots) :
    ∃ ks t, Machine.registerChildren children s = some (ks, t) ∧
      ks.map (fun c => (c.component, c.offset)) = children ∧ Scene.ReadyIn ⟨cs ++ ks, ticks⟩ t ∧
      t = { s with nreg := t.nreg, off := t.off, output := t.output } ∧
      Sys2Proof.core.run children.length (s.present (Scene.registerCommands ⟨ks, ticks⟩)) = .next t := by
  induction children generalizing cs s with
  | nil => exact ⟨[], s, rfl, rfl, by rwa [List.append_nil], rfl, rfl⟩
  | cons child rest ih =>
    obtain ⟨c, offset⟩ := child
    rw [List.length_cons] at hn
    have hlen : s.nreg = cs.length := h.count
    have hfree : s.nreg ≠ s.params.nSlots := by omega
    have hslot : (BitVec.ofNat 8 s.nreg).toNat = s.nreg := by
      have := s.params.nSlots_le
      rw [BitVec.toNat_ofNat, Nat.mod_eq_of_lt (by omega)]
    have hready := h.register (c := ⟨c, offset, BitVec.ofNat 8 s.nreg⟩) hfree hslot (BitVec.ofNat 64 s.nreg)
    have hroom : cs.length + 1 + rest.length ≤ s.params.nSlots := by omega
    obtain ⟨ks, t, hreg, hmap, ht, hframe, hrun⟩ := ih hready (by rwa [List.length_append, List.length_singleton])
    refine ⟨⟨c, offset, BitVec.ofNat 8 s.nreg⟩ :: ks, t, ?_, congrArg (List.cons (c, offset)) hmap, ?_, hframe,
      (run_next (step_present_addslot h.running hfree offset _)).trans hrun⟩
    · rw [registerChildren_cons h.running hfree, State.addedSlot, hreg]
      rfl
    · rwa [List.append_assoc, List.singleton_append] at ht

/-- Settles O51: the registration from the empty scene. -/
theorem registrationNumbersTheSlots : Obligations.RegistrationNumbersTheSlots := by
  intro children ticks s hinv hr hn hle
  obtain ⟨ks, t, hreg, hmap, hready, hframe, hrun⟩ := (Scene.readyIn_nil hinv hr hn ticks).registerChildren
    (children := children) (by simpa using hle)
  refine ⟨⟨ks, ticks⟩, t, ?_, hmap, rfl, hready.inv, hready.count, hframe, hready.slots, hrun⟩
  rw [Scene.new, hreg]
  rfl

/-! ## Runs of commands presented (R9) -/

/-- The block runs from `s` through the commands `cmds`, presented in front of what the host was going to do, to `t`. -/
def State.Runs (s : State) (cmds : List Instr) (t : State) : Prop :=
  Sys2Proof.core.run cmds.length (s.present cmds) = .next t

/-- One command, then the others. -/
theorem State.Runs.cons {s t u : State} {i : Instr} {is : List Instr}
    (h : step (s.present (i :: is)) = .next (t.present is)) (hrun : t.Runs is u) : s.Runs (i :: is) u :=
  (run_next h).trans hrun

/-- A sequence of commands that takes only itself from the host, then another. -/
theorem State.Runs.append {s t u : State} {xs ys : List Instr} (h : (s.present ys).Runs xs t)
    (hin : t.input = (s.present ys).input) (hrun : ({ t with input := s.input } : State).Runs ys u) :
    s.Runs (xs ++ ys) u := by
  have ht : ({ t with input := s.input } : State).present ys = t := by
    show { t with input := (s.present ys).input } = t
    rw [← hin]
  rw [State.Runs, ht] at hrun
  rw [State.Runs, State.present_append, List.length_append]
  exact (run_append h).trans hrun

/-! ## Reading the raster (R183 (3)) -/

/-- R157: the response of RDPIX to cell `i`. -/
def State.cellResponse (s : State) (i : Nat) : Response := responseWord 0x00 ((s.rasterAt i).setWidth 64)

/-- The block after the responses `rs` more. -/
def State.withResponses (rs : List Response) (s : State) : State := { s with output := s.output ++ rs }

theorem State.withResponses_nil (s : State) : s.withResponses [] = s := by
  rw [State.withResponses, List.append_nil]

theorem State.withResponses_append (xs ys : List Response) (s : State) :
    s.withResponses (xs ++ ys) = (s.withResponses xs).withResponses ys := by
  simp only [State.withResponses, List.append_assoc]

/-- R157: the RDPIX of a cell in range, first of the commands presented. -/
theorem step_present_rdpix {s : State} (hr : s.running) {i : Nat} (hi : i < s.params.nCells) (is : List Instr) :
    step (s.present (.rdpix (BitVec.ofNat 32 i) :: is)) =
      .next ((s.withResponses [s.cellResponse i]).present is) := by
  have hindex : (BitVec.ofNat 32 i).toNat = i := by
    rw [BitVec.toNat_ofNat, Nat.mod_eq_of_lt (hi.trans s.params.nCells_lt)]
  refine ((step_present (decodeInvertsEncode (.rdpix (BitVec.ofNat 32 i)) rfl) is s).trans
    (exec_rdpix_inRange hr (by rwa [hindex]))).trans ?_
  rw [State.readout, hindex]
  rfl

/-- R157: reading cells in range answers each in order and changes nothing else. -/
theorem runs_rdpix {s : State} (hr : s.running) {cells : List Nat} (hc : ∀ i ∈ cells, i < s.params.nCells) :
    s.Runs (cells.map fun i => .rdpix (BitVec.ofNat 32 i)) (s.withResponses (cells.map s.cellResponse)) := by
  induction cells generalizing s with
  | nil =>
    rw [List.map_nil, List.map_nil, State.withResponses_nil]
    rfl
  | cons i cells ih =>
    obtain ⟨hi, hcells⟩ := List.forall_mem_cons.mp hc
    rw [List.map_cons, List.map_cons, ← List.singleton_append (l := cells.map s.cellResponse),
      State.withResponses_append]
    exact .cons (step_present_rdpix hr hi _) (ih (s := s.withResponses [s.cellResponse i]) hr hcells)

/-! ## What frames leave (R156, R183) -/

/-- `t` is the block `s` after frames with the writes `ws`: it runs with an empty accumulator, the slot table and what
the host does next are as before, and each cell holds the last write to it or what it held. -/
structure State.Shows (s : State) (ws : List (Nat × Color)) (t : State) : Prop where
  inv : t.Inv
  running : t.running
  empty : t.accCnt = 0
  params : t.params = s.params
  nreg : t.nreg = s.nreg
  off : t.off = s.off
  input : t.input = s.input
  cells : ∀ i, i < s.params.nCells → t.rasterAt i = (lastWrite i ws).getD (s.rasterAt i)

section Shows
variable {s t u : State} {ws vs : List (Nat × Color)} {sc : Scene}

/-- The commands presented after those of the frames are not among what the frames leave. -/
theorem State.Shows.of_present {is : List Instr} (h : (s.present is).Shows ws t) :
    s.Shows ws { t with input := s.input } :=
  { h with
    inv := h.inv.with_ports t.resets s.input t.output
    input := rfl }

/-- Responses are not among what a frame leaves. -/
theorem State.Shows.withResponses (h : s.Shows ws t) (rs : List Response) : s.Shows ws (t.withResponses rs) :=
  { h with inv := h.inv.with_ports t.resets t.input (t.output ++ rs) }

/-- R156: nothing is cleared between two frames. -/
theorem State.Shows.trans (h : s.Shows ws t) (h' : t.Shows vs u) : s.Shows (ws ++ vs) u :=
  { h' with
    params := h'.params.trans h.params
    nreg := h'.nreg.trans h.nreg
    off := h'.off.trans h.off
    input := h'.input.trans h.input
    cells := fun i hi => by
      rw [lastWrite_getD_append, ← h.cells i hi]
      exact h'.cells i (h.params ▸ hi) }

/-- Before the first frame. -/
theorem Scene.ReadyIn.shows_nil (h : sc.ReadyIn s) : s.Shows [] s :=
  ⟨h.inv, h.running, h.empty, rfl, rfl, rfl, rfl, fun _ _ => rfl⟩

theorem Scene.ReadyIn.present (h : sc.ReadyIn s) (is : List Instr) : sc.ReadyIn (s.present is) :=
  { h with inv := h.inv.with_ports s.resets (s.present is).input s.output }

/-- R183 (4): after a frame the block is ready for what ticks have made of the scene. -/
theorem Scene.ReadyIn.of_shows (h : sc.ReadyIn s) (ht : s.Shows ws t) {next : Scene}
    (hkeeps : next.children.map (fun c => (c.offset, c.slot)) = sc.children.map fun c => (c.offset, c.slot)) :
    next.ReadyIn t where
  inv := ht.inv
  running := ht.running
  empty := ht.empty
  count := by
    have hlen := congrArg List.length hkeeps
    rw [List.length_map, List.length_map] at hlen
    rw [ht.nreg, h.count, hlen]
  slots k c hk := by
    have hoff : t.offAt k = s.offAt k := by rw [State.offAt, State.offAt, ht.off]
    rw [hoff]
    exact Scene.registered_of_keeps hkeeps h.slots k c hk

/-! ## One frame (R183 (1) to (3)) -/

/-- R183 (1), (2): the scene's PUSHes and RENDER. -/
theorem Scene.ReadyIn.runs_render (h : sc.ReadyIn s)
    (hfit : (sc.documentWrites s.params).length ≤ s.params.accDepth) :
    ∃ t, s.Runs (sc.pushCommands ++ [.render]) t ∧ s.Shows (sc.documentWrites s.params) t := by
  have ha := h.admits hfit
  obtain ⟨o, ho⟩ := run_pushes_render ha
  have ht := exec_render_running (s := { s.pushed sc.pushes with output := o }) ha.running
  have hinv := ((State.inv_pushed ha).with_ports s.resets s.input o).exec ht
  refine ⟨_, ?_, hinv, ha.running, State.accCnt_emptyAcc _, rfl, rfl, rfl, rfl, fun i hi => ?_⟩
  · rw [State.Runs, ← sc.map_pushOf_pushes, List.length_append, List.length_map]
    exact ho.trans ht
  · rw [rasterAt_render_of_writesOf (s := { s.pushed sc.pushes with output := o }) ha.running ht,
      ← h.writesOf_pushed ha]
    exact if_pos hi

/-- R183: the last responses are the first `n` cells in order. -/
def State.EndsInCells (n : Nat) (t : State) : Prop :=
  ∃ before, t.output = before ++ (List.range n).map t.cellResponse

/-- R183 (1) to (3): a frame completes, shows the scene and ends in the cells. -/
theorem Scene.ReadyIn.runs_frame (h : sc.ReadyIn s)
    (hfit : (sc.documentWrites s.params).length ≤ s.params.accDepth) :
    ∃ t, s.Runs (sc.frameCommands s.params.nCells) t ∧ s.Shows (sc.documentWrites s.params) t ∧
      t.EndsInCells s.params.nCells := by
  obtain ⟨t, hrun, hshows⟩ := (h.present (presentCommands s.params.nCells)).runs_render hfit
  have hcells : ∀ i ∈ List.range s.params.nCells, i < t.params.nCells :=
    fun i hi => hshows.params ▸ List.mem_range.mp hi
  have hread := runs_rdpix (s := { t with input := s.input }) hshows.running hcells
  exact ⟨_, hrun.append hshows.input hread, hshows.of_present.withResponses _, t.output, rfl⟩

/-- R183, R156: any number of frames, by induction on them: each starts where the one before it and the ticks between
them end. -/
theorem Scene.ReadyIn.runs_loop (h : sc.ReadyIn s) {draws : List FrameDraws} {scenes : List Scene}
    (hshown : Scene.shown draws sc = some scenes)
    (hfit : ∀ f ∈ scenes, (f.documentWrites s.params).length ≤ s.params.accDepth) :
    ∃ t, s.Runs (scenes.flatMap (Scene.frameCommands s.params.nCells)) t ∧
      s.Shows (scenes.flatMap (Scene.documentWrites s.params)) t ∧
      (scenes ≠ [] → t.EndsInCells s.params.nCells) := by
  induction draws generalizing sc s scenes with
  | nil =>
    obtain rfl := Option.some.inj hshown
    exact ⟨s, rfl, h.shows_nil, fun hne => absurd rfl hne⟩
  | cons d ds ih =>
    obtain ⟨next, rest, hticks, hrest, rfl⟩ := Scene.shown_cons hshown
    obtain ⟨hfirst, hothers⟩ := List.forall_mem_cons.mp hfit
    obtain ⟨t, hrun, hshows, hends⟩ :=
      (h.present (rest.flatMap (Scene.frameCommands s.params.nCells))).runs_frame hfirst
    have hframe := hshows.of_present
    have hp : t.params = s.params := hframe.params
    obtain ⟨u, hrun', hshows', hends'⟩ := ih (h.of_shows hframe (Scene.ticks_keeps hticks)) hrest
      (by rwa [← hp] at hothers)
    refine ⟨u, hrun.append hshows.input (hp ▸ hrun'), hframe.trans (hp ▸ hshows'), fun _ => ?_⟩
    cases rest with
    | nil =>
      obtain rfl := Host.Outcome.next.inj hrun'
      exact hends
    | cons => exact hp ▸ hends' (List.cons_ne_nil _ _)

end Shows

/-- Settles O52: the frame loop from the registered scene. -/
theorem frameLoopShowsEveryFrame : Obligations.FrameLoopShowsEveryFrame := by
  intro s sc draws scenes hinv hr hempty hcount hslots hshown hfit
  obtain ⟨t, hrun, hshows, hends⟩ :=
    (Scene.ReadyIn.mk hinv hr hempty hcount hslots).runs_loop hshown hfit
  refine ⟨_, t, ?_, hrun, hshows.running, hshows.empty, hshows.input, hshows.cells, hends⟩
  rw [Scene.loopCommands, hshown]
  rfl

end Machine

end Sys2Proof
end

section
/-! The exception family (spec/60_exceptions.md R221 to R225, R230): what a word does to a running block and to a halted
one, and the halted condition over any number of words. -/

open Sys2Proof.Claims

namespace Sys2Proof.Machine

/-! ## The running block -/

/-- `t` comes from `s` by a completed command: the fault latch is as it was and the response has status 0 (R82). -/
structure State.Completes (s t : State) : Prop where
  statusFault : t.statusFault = s.statusFault
  cause : t.cause = s.cause
  fcmd : t.fcmd = s.fcmd
  output : ∃ d, t.output = s.output ++ [responseWord 0x00 d]

theorem Effect.completes {s t : State} {i : Instr} (h : Effect s i t) (hf : s.faultOf i = none) : s.Completes t := by
  cases h with
  | fault f hs => cases hs.symm.trans hf
  | pure | addslot | push | render => exact ⟨rfl, rfl, rfl, _, rfl⟩

/-- R254: a command within the host's limits completes. -/
theorem exec_serviceable {s : State} {i : Instr} (hr : s.running) (hi : s.serviceable i = true) :
    ∃ t, exec i s = .next t ∧ s.Completes t := by
  obtain ⟨t, ht⟩ := exec_total i s
  exact ⟨t, ht, (exec_running hr ht).completes ((serviceable_iff s i).mp hi)⟩

section Word

variable {s t : State} {w : Command} {rest : List HostEvent} (hin : s.input = .command w :: rest)
include hin

/-- R80: an illegal word on a running block. -/
theorem step_illegal_running (hr : s.running) (hd : ∃ why, decode w = .illegal why) :
    step s = .next (latched 0x01 w { s with input := rest }) := by
  obtain ⟨why, hd⟩ := hd
  rw [step_illegal hin hd, State.illegalWord_running (s := { s with input := rest }) hr]

/-- Everything a word does to a running block: it completes, or it latches a cause and the word as received (R222). -/
theorem step_running_cases (hr : s.running) (h : step s = .next t) :
    s.Completes t ∨ ∃ f : Cause, t = latched f.code w { s with input := rest } := by
  obtain ⟨i, hd, he⟩ | ⟨why, -, rfl⟩ := acceptWord_cases ((step_word hin).symm.trans h)
  · cases hf : ({ s with input := rest } : State).faultOf i with
    | none =>
      have heff : Effect { s with input := rest } i t := exec_running hr he
      obtain ⟨hfault, hcause, hfcmd, hout⟩ := heff.completes hf
      exact .inl ⟨hfault, hcause, hfcmd, hout⟩
    | some f =>
      have ht := Host.Outcome.next.inj (he.symm.trans (exec_of_faultOf hr hf))
      rw [encode_of_decode hd] at ht
      exact .inr ⟨f, ht⟩
  · exact .inr ⟨.illegalCommand, State.illegalWord_running (s := { s with input := rest }) hr w⟩

/-! ## The halted block -/

/-- R158, R224: a RDCSR word is served in every state, with the CSR's value before the word. -/
theorem step_rdcsr {n : BitVec 8} (hd : decode w = .command (.rdcsr n)) :
    step s = .next (answered ((s.csr n).setWidth 64) { s with input := rest }) :=
  (stepRunsTheDecodedCommand s w rest _ hin hd).trans (exec_rdcsr n _)

/-- R224: a halted block refuses every other word. -/
theorem step_halted_refused (hh : ¬ s.running) (hd : ¬ ∃ n, decode w = .command (.rdcsr n)) :
    step s = .next (turnedAway { s with input := rest }) := by
  cases hw : decode w with
  | illegal why => rw [step_illegal hin hw, State.illegalWord_halted (s := { s with input := rest }) hh]
  | command i =>
    have hi : i.mnemonic ≠ .rdcsr := by
      cases i with
      | rdcsr n => exact absurd ⟨n, hw⟩ hd
      | _ => simp [Instr.mnemonic]
    exact (stepRunsTheDecodedCommand s w rest i hin hw).trans (exec_halted (State.not_running_iff.mp hh) hi)

/-- Everything a word does to a halted block: an answer or a refusal. -/
theorem step_halted_cases (hh : ¬ s.running) (h : step s = .next t) :
    (∃ d, t = answered d { s with input := rest }) ∨ t = turnedAway { s with input := rest } := by
  by_cases hd : ∃ n, decode w = .command (.rdcsr n)
  · obtain ⟨n, hd⟩ := hd
    exact .inl ⟨_, Host.Outcome.next.inj (h.symm.trans (step_rdcsr hin hd))⟩
  · exact .inr (Host.Outcome.next.inj (h.symm.trans (step_halted_refused hin hh hd)))

/-- R224, R225: a word changes nothing of a halted block but its ports. -/
theorem step_halted_frame (hh : ¬ s.running) (h : step s = .next t) :
    t = { s with input := rest, output := t.output } := by
  obtain ⟨d, rfl⟩ | rfl := step_halted_cases hin hh h <;> rfl

/-! ## The status of a response -/

/-- R221: a word latches one of the six causes or none, and its response has status 0, a cause's code or Halted. -/
theorem step_cause_and_status (h : step s = .next t) :
    (t.cause = s.cause ∨ ∃ f : Cause, t.cause = f.code) ∧ ∃ st d, t.output = s.output ++ [responseWord st d] ∧
      (st = 0x00 ∨ (∃ f : Cause, st = f.code) ∨ st = haltedStatus) := by
  by_cases hr : s.running
  · obtain hc | ⟨f, rfl⟩ := step_running_cases hin hr h
    · obtain ⟨d, hout⟩ := hc.output
      exact ⟨.inl hc.cause, 0x00, d, hout, .inl rfl⟩
    · exact ⟨.inr ⟨f, rfl⟩, f.code, 0, rfl, .inr (.inl ⟨f, rfl⟩)⟩
  · obtain ⟨d, rfl⟩ | rfl := step_halted_cases hin hr h
    · exact ⟨.inl rfl, 0x00, d, rfl, .inl rfl⟩
    · exact ⟨.inl rfl, haltedStatus, 0, rfl, .inr (.inr rfl)⟩

end Word

/-- R221: the codes start at 1. -/
theorem Cause.one_le_code (f : Cause) : 1 ≤ f.code.toNat := by cases f <;> decide

/-! ## The statements -/

/-- Settles O11: each cause by the operand test that names it, and no other code by what a word can do. -/
theorem faultCausesAndConditions : Obligations.FaultCausesAndConditions := by
  refine ⟨fun s w rest hr hin hd => step_illegal_running hin hr hd,
    fun s slot a data hr hs => exec_push_badSlot hr a data hs, fun s a hr hn => exec_addslot_full hr a hn,
    fun s slot a data hr hs hc => exec_push_overflow hr a data hs hc, fun s index hr hi => exec_rdpix_badIndex hr hi,
    fun s a width height hr hz => exec_edges_badBounds hr a hz, fun s i hr hi => ?_,
    fun s w rest t hh hin hd h => ?_, fun s t w rest hin h => ?_⟩
  · obtain ⟨t, ht, hc⟩ := exec_serviceable hr hi
    exact ⟨t, ht, hc.statusFault.trans hr, hc.cause, hc.fcmd⟩
  · obtain rfl := Host.Outcome.next.inj (h.symm.trans (step_halted_refused hin hh hd))
    exact ⟨rfl, rfl⟩
  · obtain ⟨hcause, st, d, hout, hst⟩ := step_cause_and_status hin h
    refine ⟨hcause.imp_right ?_, _, hout, ?_⟩
    · rintro ⟨f, hf⟩
      exact hf ▸ ⟨f.one_le_code, f.code_le_six⟩
    · rw [responseWord_status]
      obtain rfl | ⟨f, rfl⟩ | rfl := hst
      · exact .inl (Nat.zero_le 6)
      · exact .inl f.code_le_six
      · exact .inr rfl

/-- Settles O12: a word that completes leaves the block running, so the word is one that latches. -/
theorem faultEntryChangesNothingElse : Obligations.FaultEntryChangesNothingElse := fun _ _ _ _ hr hin h hstop =>
  (step_running_cases hin hr h).resolve_left fun hc => hstop (hc.statusFault.trans hr)

/-- Settles O13: the halted block changes nothing but its ports, and the operand tests come in their order. -/
theorem faultPriority : Obligations.FaultPriority := by
  refine ⟨fun s w rest hh hin => ?_, fun s w rest hr hin hd => ⟨_, step_illegal_running hin hr hd, rfl⟩,
    fun s slot a data hr hs _ => ⟨_, exec_push_badSlot hr a data hs, rfl⟩⟩
  obtain ⟨t, ht⟩ := step_total s
  refine ⟨t, ht, ?_⟩
  rw [step_halted_frame hin hh ht]
  exact ⟨rfl, rfl⟩

/-- Settles O14, by the three things a step can do: the idle step and a word keep the latch, the reset event clears
it. -/
theorem haltedBlockServesOnlyRdcsr : Obligations.HaltedBlockServesOnlyRdcsr := by
  refine ⟨fun s w rest hh hin => ⟨fun n hd => step_rdcsr hin hd, step_halted_refused hin hh⟩,
    fun s t hh h hrst => ?_, fun s t hh h hrst => ?_⟩
  · obtain ⟨-, rfl⟩ | ⟨rest, hin, -⟩ | ⟨w, rest, hin, -⟩ := step_cases h
    · exact ⟨hh, rfl, rfl⟩
    · exact absurd (congrArg List.head? hin) hrst
    · rw [step_halted_frame hin hh h]
      exact ⟨hh, rfl, rfl⟩
  · obtain ⟨rest, hin⟩ := List.head?_eq_some_iff.mp hrst
    obtain rfl := Host.Outcome.next.inj (h.symm.trans (step_rst hin))
    exact State.resetEvent_statusFault _

/-- Settles O15, by induction on the words: each leaves a halted block with the same frame. -/
theorem haltedBlockStaysFrozen : Obligations.HaltedBlockStaysFrozen := by
  intro ws
  induction ws with
  | nil =>
    intro s rest _ hin
    obtain rfl : s.input = rest := hin
    exact ⟨s, rfl, rfl⟩
  | cons w ws ih =>
    intro s rest hh hin
    obtain ⟨u, hu⟩ := step_total s
    have hframe := step_halted_frame hin hh hu
    have hhu : ¬ u.running := by rwa [hframe]
    obtain ⟨t, hrun, ht⟩ := ih u rest hhu (congrArg State.input hframe)
    refine ⟨t, (run_next hu).trans hrun, ht.trans ?_⟩
    rw [hframe]

/-- Settles O10: with no event there is nothing to handle. -/
theorem idleBlockKeepsItsState : Obligations.IdleBlockKeepsItsState := fun _ hin => step_idle hin

end Sys2Proof.Machine
end

section
/-! The reset and hazards family (spec/70_reset_and_hazards.md R250, R251, R254): which commands keep a running block
running, and what the block holds after a reset event. -/

namespace Sys2Proof.Machine

/-! ## Commands within the host's limits (R254) -/

/-- R226: on a running block only the fault that `faultOf` names ends the running. -/
theorem running_iff_faultOf_eq_none {s t : State} {i : Instr} (hr : s.running) (h : exec i s = .next t) :
    t.running ↔ s.faultOf i = none := by
  cases hf : s.faultOf i with
  | none =>
    have hc : s.Completes t := (exec_running hr h).completes hf
    exact iff_of_true (hc.statusFault.trans hr) rfl
  | some f =>
    obtain rfl := Host.Outcome.next.inj (h.symm.trans (exec_of_faultOf hr hf))
    exact iff_of_false (by simp) (by simp)

/-- Settles O16: a command is within the limits exactly when it names no fault. -/
theorem serviceableCommandsNeverFault : Obligations.ServiceableCommandsNeverFault := fun s _ i hr h =>
  (running_iff_faultOf_eq_none hr h).trans (serviceable_iff s i).symm

/-! ## The state after a reset event (R250, R251) -/

@[simp] theorem State.offAt_resetEvent (s : State) (k : Nat) : s.resetEvent.offAt k = ⟨0, 0⟩ :=
  State.offAt_init s.params k

@[simp] theorem State.accAt_resetEvent (s : State) (k : Nat) : s.resetEvent.accAt k = [] :=
  State.accAt_init s.params k

@[simp] theorem State.accCnt_resetEvent (s : State) : s.resetEvent.accCnt = 0 := State.accCnt_init s.params

/-- R251: no cell has been written since the reset event, so each reads the RASTER_INIT of that event. -/
@[simp] theorem State.rasterAt_resetEvent (s : State) (i : Nat) :
    s.resetEvent.rasterAt i = Config.rasterInit (s.resets + 1) i := State.rasterAt_unwritten rfl

/-- Settles O42: the reset event gives the values of `State.init`, and a word takes no flag and no slot back. -/
theorem resetEventRestoresResetValues : Obligations.ResetEventRestoresResetValues := by
  refine ⟨fun s rest hin => ⟨_, step_rst hin, rfl, State.offAt_resetEvent _, State.accAt_resetEvent _,
    State.accCnt_resetEvent _, rfl, rfl, rfl, rfl, rfl, rfl, State.rasterAt_resetEvent _, rfl, rfl⟩,
    fun s t w rest hin h => ?_⟩
  obtain ⟨hfault, hoob, hnreg⟩ := step_word_grows hin h
  exact ⟨hfault, hoob, hnreg⟩

/-- Settles O44: what a cell reads after the reset event depends on the count of reset events alone. -/
theorem rasterAfterResetIsFree : Obligations.RasterAfterResetIsFree := fun s s' rest rest' hin hin' hcount =>
  ⟨_, _, step_rst hin, step_rst hin', fun i => ⟨State.rasterAt_resetEvent _ i, by simp [hcount]⟩⟩

end Sys2Proof.Machine
end

section
/-! The model's own choices (log entries 3, 6 and 9): how the raster list is written down cannot be observed, a reserved
map code is an illegal word and an illegal command, and a FallingSand without a shuffle has no tick. -/

namespace Sys2Proof

/-! ## Commands that are not well-formed (log entry 6) -/

/-- R71: the fields of a command's word are the command's. -/
theorem Fields.unpack_encode (i : Instr) : Fields.unpack (encode i) = i.fields := Fields.unpack_pack _

/-- R78: a command's word has the opcode of its row. -/
theorem encode_opcode (i : Instr) : (encode i).extractLsb' 0 8 = i.mnemonic.opcode := by
  rw [← Fields.unpack_op, Fields.unpack_encode]
  cases i <;> rfl

/-- R77, R80: a command with a reserved function code has no legal word. -/
theorem illegal_encode_of_not_wellFormed {i : Instr} (hi : ¬ i.wellFormed = true) :
    ∃ why, decode (encode i) = .illegal why := by
  rw [illegal_iff_not_command, unusedFieldsMustBeZero i.mnemonic _ (encode_opcode i), Fields.unpack_encode]
  rintro ⟨-, hfn⟩
  exact hi (i.wellFormed_iff.mpr hfn)

namespace Machine

/-- Settles O22: a reserved code is neither of the two that `faultOf` and the static check let pass. -/
theorem reservedMapCodesFault : Obligations.ReservedMapCodesFault := by
  intro ch fn data a s hr h0 h1
  have hfn : ¬ (fn = 0 ∨ fn = 1) := not_or.mpr ⟨h0, h1⟩
  refine ⟨exec_of_faultOf (i := .mapch ch fn data a) (f := .illegalCommand) hr (if_neg hfn),
    illegal_encode_of_not_wellFormed fun hw => hfn ?_⟩
  exact (Instr.wellFormed_iff _).mp hw rfl

/-! ## Ticks without a shuffle (log entry 9) -/

/-- Settles O56: the tick asks for a shuffle of the grains. -/
theorem sandHasNoTickWithoutAShuffle : Obligations.SandHasNoTickWithoutAShuffle := fun _ _ _ _ _ _ h =>
  if_neg fun hs => h ((isShuffle_iff _ _).mp hs)

/-! ## How the raster list is written down (log entry 3) -/

/-- Two states that read alike are one state with two raster lists. -/
theorem State.SameReadings.exists_raster {s s' : State} (h : s.SameReadings s') : ∃ m, s' = { s with raster := m } :=
  ⟨_, h.1⟩

/-- What a command looks at before it writes is the same in two states that read alike: RDPIX alone looks at a cell. -/
theorem State.SameReadings.agreesOn {s s' : State} (h : s.SameReadings s') (i : Instr) : s.AgreesOn s' i := by
  obtain ⟨m, rfl⟩ := h.exists_raster
  refine ⟨rfl, by cases i <;> rfl, ?_⟩
  cases i with
  | rdpix index => exact congrArg (BitVec.setWidth 64) (h.2 index.toNat).symm
  | _ => rfl

/-! ### RENDER on two rasters that read alike -/

/-- R155: what RENDER counts is fixed by its writes, not by the list they go to. -/
theorem State.SameReadings.arbitrate_counts {s s' : State} (h : s.SameReadings s') :
    s'.arbitrate.written = s.arbitrate.written ∧ s'.arbitrate.dropped = s.arbitrate.dropped := by
  obtain ⟨m, rfl⟩ := h.exists_raster
  obtain ⟨hwritten, hdropped⟩ := s.arbitrate_counts
  obtain ⟨hwritten', hdropped'⟩ := ({ s with raster := m } : State).arbitrate_counts
  exact ⟨hwritten'.trans hwritten.symm, hdropped'.trans hdropped.symm⟩

/-- R154: RENDER puts the same last writes over both rasters. -/
theorem State.SameReadings.arbitrate {s s' : State} (h : s.SameReadings s') :
    State.SameReadings { s with raster := s.arbitrate.raster } { s' with raster := s'.arbitrate.raster } := by
  obtain ⟨m, rfl⟩ := h.exists_raster
  refine ⟨rfl, fun i => ?_⟩
  simp only [State.rasterAt, State.arbitrate_read?, Option.getD_or]
  exact congrArg _ (h.2 i)

theorem State.SameReadings.render {s s' : State} (h : s.SameReadings s') :
    State.SameReadings
      ({ s with raster := s.arbitrate.raster,
                statusOob := oobAfter s.statusOob s.arbitrate.dropped }.emptyAcc.respond s.arbitrate.data)
      ({ s' with raster := s'.arbitrate.raster,
                 statusOob := oobAfter s'.statusOob s'.arbitrate.dropped }.emptyAcc.respond s'.arbitrate.data) := by
  obtain ⟨hwritten, hdropped⟩ := h.arbitrate_counts
  have hdata : s'.arbitrate.data = s.arbitrate.data := by rw [Arbiter.data, Arbiter.data, hwritten, hdropped]
  rw [hdata, hdropped]
  refine ⟨?_, h.arbitrate.2⟩
  obtain ⟨m, rfl⟩ := h.exists_raster
  rfl

/-! ### Commands, words and steps side by side -/

/-- Each kind of change a command makes in two states that read alike leaves them reading alike. -/
theorem State.SameReadings.exec {i : Instr} {s s' t t' : State} (h : s.SameReadings s') (he : exec i s = .next t)
    (he' : exec i s' = .next t') : t.SameReadings t' := by
  cases exec_twin (h.agreesOn i) he he' with
  | refused | pure | fault | addslot | push =>
    obtain ⟨m, rfl⟩ := h.exists_raster
    exact ⟨rfl, h.2⟩
  | render => exact h.render

/-- R80: an illegal word looks at the halted flag alone. -/
theorem State.SameReadings.illegalWord {s s' : State} (h : s.SameReadings s') (w : Command) :
    (s.illegalWord w).SameReadings (s'.illegalWord w) := by
  obtain ⟨m, rfl⟩ := h.exists_raster
  by_cases hr : s.running
  · rw [State.illegalWord_running hr, State.illegalWord_running (s := { s with raster := m }) hr]
    exact ⟨rfl, h.2⟩
  · rw [State.illegalWord_halted hr, State.illegalWord_halted (s := { s with raster := m }) hr]
    exact ⟨rfl, h.2⟩

theorem State.SameReadings.acceptWord {w : Command} {s s' t t' : State} (h : s.SameReadings s')
    (hw : acceptWord w s = .next t) (hw' : acceptWord w s' = .next t') : t.SameReadings t' := by
  obtain ⟨i, hd, he⟩ | ⟨why, hd, rfl⟩ := acceptWord_cases hw
  · rw [Machine.acceptWord, hd] at hw'
    exact h.exec he hw'
  · rw [Machine.acceptWord, hd] at hw'
    exact Host.Outcome.next.inj hw' ▸ h.illegalWord w

theorem State.SameReadings.input_eq {s s' : State} (h : s.SameReadings s') : s'.input = s.input := by
  obtain ⟨m, rfl⟩ := h.exists_raster
  rfl

theorem State.SameReadings.with_input {s s' : State} (h : s.SameReadings s') (rest : List HostEvent) :
    State.SameReadings { s with input := rest } { s' with input := rest } := by
  obtain ⟨m, rfl⟩ := h.exists_raster
  exact ⟨rfl, h.2⟩

/-- R250: a reset event empties both lists. -/
theorem State.SameReadings.resetEvent {s s' : State} (h : s.SameReadings s') :
    s.resetEvent.SameReadings s'.resetEvent := by
  obtain ⟨m, rfl⟩ := h.exists_raster
  exact ⟨rfl, fun _ => rfl⟩

/-- Settles O53: both states have the same event next, and the idle step, the reset event and every word keep two states
reading alike. -/
theorem rasterListIsNotObservable : Obligations.RasterListIsNotObservable := by
  intro s s' t t' h hstep hstep'
  obtain ⟨hin, rfl⟩ | ⟨rest, hin, rfl⟩ | ⟨w, rest, hin, hw⟩ := step_cases hstep
  · obtain rfl := Host.Outcome.next.inj ((step_idle (h.input_eq.trans hin)).symm.trans hstep')
    exact h
  · obtain rfl := Host.Outcome.next.inj ((step_rst (h.input_eq.trans hin)).symm.trans hstep')
    exact (h.with_input rest).resetEvent
  · exact (h.with_input rest).acceptWord hw ((step_word (h.input_eq.trans hin)).symm.trans hstep')

end Machine

end Sys2Proof
end
